-- ==== Sys2Proof/Word.lean ====
section
/-! DEFINITION. The word types of the core (spec/00_scope.md R5, R8, R9): every quantity is unsigned, bit 0 is the least significant bit. -/

namespace Sys2Proof

/-- A nibble: a register number `x` or `y`, a sprite height `n`, a sub-operation (R71). -/
abbrev Nibble := BitVec 4

/-- A byte: a general register, a memory cell, a timer, the immediate `nn` (R20, R26, R29). -/
abbrev Byte := BitVec 8

/-- The 12-bit address immediate `nnn` (R71, R73). -/
abbrev Addr12 := BitVec 12

/-- A 16-bit word: an instruction word, PC, I, a call-stack entry (R22, R23, R24, R70). -/
abbrev Word := BitVec 16

end Sys2Proof
end

