-- ==== Sys2Proof/Config.lean ====
section
/-! DEFINITION. What is fixed for the machine (spec/00_scope.md R5 to R7), what the host chooses and holds constant for a run (the quirk straps and the font, R6, R33), and what the
host chooses anew for each step (the step inputs, R32). The three opaque constants have no body: nothing can be proved of their values. -/

namespace Sys2Proof

/-- `MEM_SIZE` of R5: bytes of memory. -/
def memSize : Nat := 4096

/-- `STACK_DEPTH` of R5 and R7: return addresses the call stack holds on this hardware (notes/assumptions/18.md). -/
def stackDepth : Nat := 16

/-- `FONT_BASE` of R5: the first byte of the font. -/
def fontBase : Nat := 0x050

/-- `PROG_BASE` of R5: the first byte of the program. -/
def progBase : Nat := 0x200

/-- `PROG_MAX` of R5: the largest program image in bytes. -/
def progMax : Nat := 3584

/-- The five Boolean straps of R6 and R33: the four quirk switches and the Fx1E flag policy.
The host holds them constant from reset to the end of the run and no instruction reads or writes them as a value. -/
structure Straps where
  /-- `Q_SHIFT`: 8xy6 and 8xyE shift V[y] (true) or V[x] (false). -/
  qShift : Bool
  /-- `Q_JUMP_VX`: Bnnn adds V[x] (true) or V[0] (false). -/
  qJumpVx : Bool
  /-- `Q_LOAD_INC`: Fx65 adds x+1 to I (true) or leaves I (false). -/
  qLoadInc : Bool
  /-- `Q_STORE_INC`: Fx55 adds x+1 to I (true) or leaves I (false). -/
  qStoreInc : Bool
  /-- `FX1E_CLEARS_VF`: Fx1E without overflow writes VF = 0 (true) or leaves VF (false). -/
  fx1eClearsVf : Bool
  deriving DecidableEq, Repr, Inhabited

/-- The three inputs of one step (R32), sampled once for the step and constant through it (R107). -/
structure StepInput where
  /-- `keys`: bit `k` is 1 when hexadecimal key `k` is pressed. -/
  keys : BitVec 16
  /-- `elapsedTicks`: the number of 60 Hz ticks the host accounts to this step, any natural number. -/
  elapsedTicks : Nat
  /-- `rnd`: the random byte Cxnn uses. -/
  rnd : Byte
  deriving DecidableEq, Repr, Inhabited

/-- `FONT` of R6: the 80 bytes the host installs at 0x050 .. 0x09F, to which no instruction's rule gives a value.
DESIGN CHOICE notes/assumptions/3.md: an uninterpreted constant, so what holds from reset holds for every font. The spec's default is `defaultFont` (Machine/Font.lean). -/
opaque Config.font : Vector Byte 80

/-- The straps the host chose for the run that starts at reset: R6 gives them no default.
DESIGN CHOICE notes/assumptions/2.md: an uninterpreted constant, so what holds from reset holds for every setting. -/
opaque Config.straps : Straps

/-- The inputs the host presents to the first step after reset and whenever no listed ones are left, one free value for each draw (R32: a draw, under no law).
DESIGN CHOICE notes/assumptions/1.md. -/
opaque Config.hostInput : Nat → StepInput

end Sys2Proof
end

