-- ==== Sys2Proof/WellFormed.lean ====
section
/-! DEFINITION. What makes an instruction and a program image legal. An instruction's fields are typed by their widths and every value of every field is
legal (spec/10_state.md R20, spec/30_encoding.md R73), so no term of `Instr` is ill-formed; a program image has one check (spec/70_reset_and_hazards.md R272). -/

namespace Sys2Proof

/-- R20 and R73: `x` and `y` may be any register, 15 included, and every immediate is legal, so no instruction has a further check.
One arm for each constructor, so that a row added to `Instr` must say what it checks. -/
def Instr.wellFormed (i : Instr) : Bool :=
  match i with
  | .cls | .ret => true
  | .jp _ | .call _ | .ldI _ | .jpV0 _ => true
  | .seImm _ _ | .sneImm _ _ | .ldImm _ _ | .addImm _ _ | .rnd _ _ => true
  | .seReg _ _ | .sneReg _ _ | .ldReg _ _ | .orReg _ _ | .andReg _ _ | .xorReg _ _ => true
  | .addReg _ _ | .subReg _ _ | .shr _ _ | .subn _ _ | .shl _ _ => true
  | .drw _ _ _ => true
  | .skp _ | .sknp _ | .ldVxDt _ | .ldVxKey _ | .ldDtVx _ | .ldStVx _ => true
  | .addI _ | .ldF _ | .ldB _ | .storeRegs _ | .loadRegs _ => true

/-- R236 and R272(a): a program image has at most 3584 bytes, else the loader refuses it with LoadError; an empty image is legal. -/
def imageWellFormed (image : List Byte) : Bool := decide (image.length ≤ progMax)

end Sys2Proof
end

