-- ==== Sys2Proof/Decode.lean ====
section
/-! DEFINITION. The decoder and, after it, the encoder (spec/30_encoding.md R70 to R82). The decoder is a total function of the 16 bits of the word alone;
it refuses every illegal word by the name of the family that refuses it, in the cases of R74. -/

namespace Sys2Proof

/-- Why no instruction is read. The first six are the rows of R76; the last is a byte stream that ends inside a word. -/
inductive DecodeError where
  /-- Family 0: the word is neither 0x00E0 nor 0x00EE. -/
  | family0
  /-- Family 5: `n4` is not 0. -/
  | family5
  /-- Family 8: `n4` is one of the seven unassigned sub-operations (R161). -/
  | family8
  /-- Family 9: `n4` is not 0. -/
  | family9
  /-- Family E: the low byte is neither 0x9E nor 0xA1. -/
  | familyE
  /-- Family F: the low byte is none of the nine of R74. -/
  | familyF
  /-- Fewer than two bytes were given (R70: every instruction is two bytes). -/
  | truncated
  deriving DecidableEq, Repr

/-! The fields of R71. -/

/-- `n1 = ir[15:12]`, the opcode family. -/
def fieldN1 (ir : Word) : Nibble := ir.extractLsb' 12 4

/-- `x = n2 = ir[11:8]`. -/
def fieldX (ir : Word) : Nibble := ir.extractLsb' 8 4

/-- `y = n3 = ir[7:4]`. -/
def fieldY (ir : Word) : Nibble := ir.extractLsb' 4 4

/-- `n = n4 = ir[3:0]`. -/
def fieldN (ir : Word) : Nibble := ir.extractLsb' 0 4

/-- `nn = ir[7:0]`. -/
def fieldNN (ir : Word) : Byte := ir.extractLsb' 0 8

/-- `nnn = ir[11:0]`. -/
def fieldNNN (ir : Word) : Addr12 := ir.extractLsb' 0 12

/-- Family 0 matches the whole word (R74). -/
def decodeFamily0 (ir : Word) : Except DecodeError Instr :=
  if ir = 0x00E0#16 then .ok .cls
  else if ir = 0x00EE#16 then .ok .ret
  else .error .family0

/-- Family 8: `n4` selects the operation (R74, R161). -/
def decodeFamily8 (ir : Word) : Except DecodeError Instr :=
  match (fieldN ir).toNat with
  | 0x0 => .ok (.ldReg (fieldX ir) (fieldY ir))
  | 0x1 => .ok (.orReg (fieldX ir) (fieldY ir))
  | 0x2 => .ok (.andReg (fieldX ir) (fieldY ir))
  | 0x3 => .ok (.xorReg (fieldX ir) (fieldY ir))
  | 0x4 => .ok (.addReg (fieldX ir) (fieldY ir))
  | 0x5 => .ok (.subReg (fieldX ir) (fieldY ir))
  | 0x6 => .ok (.shr (fieldX ir) (fieldY ir))
  | 0x7 => .ok (.subn (fieldX ir) (fieldY ir))
  | 0xE => .ok (.shl (fieldX ir) (fieldY ir))
  | _ => .error .family8

/-- Family E: the whole low byte selects the operation (R74). -/
def decodeFamilyE (ir : Word) : Except DecodeError Instr :=
  match (fieldNN ir).toNat with
  | 0x9E => .ok (.skp (fieldX ir))
  | 0xA1 => .ok (.sknp (fieldX ir))
  | _ => .error .familyE

/-- Family F: the whole low byte selects the operation (R74). -/
def decodeFamilyF (ir : Word) : Except DecodeError Instr :=
  match (fieldNN ir).toNat with
  | 0x07 => .ok (.ldVxDt (fieldX ir))
  | 0x0A => .ok (.ldVxKey (fieldX ir))
  | 0x15 => .ok (.ldDtVx (fieldX ir))
  | 0x18 => .ok (.ldStVx (fieldX ir))
  | 0x1E => .ok (.addI (fieldX ir))
  | 0x29 => .ok (.ldF (fieldX ir))
  | 0x33 => .ok (.ldB (fieldX ir))
  | 0x55 => .ok (.storeRegs (fieldX ir))
  | 0x65 => .ok (.loadRegs (fieldX ir))
  | _ => .error .familyF

/-- The decoder of R74, R75 and R82: `n1` selects the family, then the family makes its second test. -/
def decode (ir : Word) : Except DecodeError Instr :=
  match (fieldN1 ir).toNat with
  | 0x0 => decodeFamily0 ir
  | 0x1 => .ok (.jp (fieldNNN ir))
  | 0x2 => .ok (.call (fieldNNN ir))
  | 0x3 => .ok (.seImm (fieldX ir) (fieldNN ir))
  | 0x4 => .ok (.sneImm (fieldX ir) (fieldNN ir))
  | 0x5 => if fieldN ir = 0x0#4 then .ok (.seReg (fieldX ir) (fieldY ir)) else .error .family5
  | 0x6 => .ok (.ldImm (fieldX ir) (fieldNN ir))
  | 0x7 => .ok (.addImm (fieldX ir) (fieldNN ir))
  | 0x8 => decodeFamily8 ir
  | 0x9 => if fieldN ir = 0x0#4 then .ok (.sneReg (fieldX ir) (fieldY ir)) else .error .family9
  | 0xA => .ok (.ldI (fieldNNN ir))
  | 0xB => .ok (.jpV0 (fieldNNN ir))
  | 0xC => .ok (.rnd (fieldX ir) (fieldNN ir))
  | 0xD => .ok (.drw (fieldX ir) (fieldY ir) (fieldN ir))
  | 0xE => decodeFamilyE ir
  -- a nibble is at most 15, so what is left is family F
  | _ => decodeFamilyF ir

/-- R53: a word is stored big-endian, so the byte at the lower address is `ir[15:8]`. -/
def wordOfBytes (hi lo : Byte) : Word := hi.setWidth 16 <<< 8 ||| lo.setWidth 16

/-- The byte of a word that is stored at the lower address (R53). -/
def wordHi (ir : Word) : Byte := ir.extractLsb' 8 8

/-- The byte of a word that is stored at the higher address (R53). -/
def wordLo (ir : Word) : Byte := ir.extractLsb' 0 8

/-- Decode the first instruction of a byte stream and give back the rest of it: two bytes, high byte first (R53, R70). -/
def decodeBytes (bytes : List Byte) : Except DecodeError (Instr × List Byte) :=
  match bytes with
  | hi :: lo :: rest =>
    match decode (wordOfBytes hi lo) with
    | .ok i => .ok (i, rest)
    | .error e => .error e
  | _ => .error .truncated

/-- The word whose bits are the low `nbits` of `w`, numbered as spec/opcode_table.json numbers them (every row has one 16-bit word), the bits above them zero. -/
def tableWord (nbits w : Nat) : Word := BitVec.ofNat 16 (w % 2 ^ nbits)

/-- The instruction the decoder reads from the word `w` of the opcode table, laid out in memory order first. -/
def decodeTableWord (nbits w : Nat) : Option Instr :=
  match decodeBytes [wordHi (tableWord nbits w), wordLo (tableWord nbits w)] with
  | .ok (i, _) => some i
  | .error _ => none

/-! The encoder, written from the formats of R72 and the rows of R75. -/

/-- Format `NNN`: the family and a 12-bit immediate. -/
def packNNN (family : Nibble) (nnn : Addr12) : Word :=
  family.setWidth 16 <<< 12 ||| nnn.setWidth 16

/-- Formats `XNN` and `XKK`: the family, `x`, and a low byte. -/
def packXNN (family x : Nibble) (low : Byte) : Word :=
  family.setWidth 16 <<< 12 ||| x.setWidth 16 <<< 8 ||| low.setWidth 16

/-- Formats `XY` and `XYN`: the family, `x`, `y`, and a last nibble. -/
def packXYN (family x y last : Nibble) : Word :=
  family.setWidth 16 <<< 12 ||| x.setWidth 16 <<< 8 ||| y.setWidth 16 <<< 4 ||| last.setWidth 16

/-- The word of an instruction (R75). -/
def encode (i : Instr) : Word :=
  match i with
  | .cls => 0x00E0#16
  | .ret => 0x00EE#16
  | .jp nnn => packNNN 0x1#4 nnn
  | .call nnn => packNNN 0x2#4 nnn
  | .seImm x nn => packXNN 0x3#4 x nn
  | .sneImm x nn => packXNN 0x4#4 x nn
  | .seReg x y => packXYN 0x5#4 x y 0x0#4
  | .ldImm x nn => packXNN 0x6#4 x nn
  | .addImm x nn => packXNN 0x7#4 x nn
  | .ldReg x y => packXYN 0x8#4 x y 0x0#4
  | .orReg x y => packXYN 0x8#4 x y 0x1#4
  | .andReg x y => packXYN 0x8#4 x y 0x2#4
  | .xorReg x y => packXYN 0x8#4 x y 0x3#4
  | .addReg x y => packXYN 0x8#4 x y 0x4#4
  | .subReg x y => packXYN 0x8#4 x y 0x5#4
  | .shr x y => packXYN 0x8#4 x y 0x6#4
  | .subn x y => packXYN 0x8#4 x y 0x7#4
  | .shl x y => packXYN 0x8#4 x y 0xE#4
  | .sneReg x y => packXYN 0x9#4 x y 0x0#4
  | .ldI nnn => packNNN 0xA#4 nnn
  | .jpV0 nnn => packNNN 0xB#4 nnn
  | .rnd x nn => packXNN 0xC#4 x nn
  | .drw x y n => packXYN 0xD#4 x y n
  | .skp x => packXNN 0xE#4 x 0x9E#8
  | .sknp x => packXNN 0xE#4 x 0xA1#8
  | .ldVxDt x => packXNN 0xF#4 x 0x07#8
  | .ldVxKey x => packXNN 0xF#4 x 0x0A#8
  | .ldDtVx x => packXNN 0xF#4 x 0x15#8
  | .ldStVx x => packXNN 0xF#4 x 0x18#8
  | .addI x => packXNN 0xF#4 x 0x1E#8
  | .ldF x => packXNN 0xF#4 x 0x29#8
  | .ldB x => packXNN 0xF#4 x 0x33#8
  | .storeRegs x => packXNN 0xF#4 x 0x55#8
  | .loadRegs x => packXNN 0xF#4 x 0x65#8

/-- The bytes of an instruction in memory order, high byte first (R53). -/
def encodeBytes (i : Instr) : List Byte := [wordHi (encode i), wordLo (encode i)]

end Sys2Proof
end

