-- ==== Sys2Proof/Machine/State.lean ====
section
/-! DEFINITION. The state of the core as plain data (spec/10_state.md R20 to R30, R35, R36), the reasons a step can stop, and the state after reset (R37, R270). -/

namespace Sys2Proof.Machine

/-- `MEM` (R29, R50): the parameter FONT of the run (R6, R33), and the cells that differ from the contents before any program is loaded, addresses strictly rising.
What an unlisted cell reads as is `unlistedByte` (Machine/Memory.lean); the canonical form is `Memory.wf` there. -/
structure Memory where
  /-- `FONT`: what 0x050 .. 0x09F hold after reset (R31). A parameter: no instruction and no store changes it (notes/assumptions/3.md). -/
  font : Vector Byte 80
  /-- The listed cells. -/
  cells : List Host.Cell
  deriving DecidableEq, Repr

/-- `FB` (R28, R190): the 32 rows from the top, each a row of 64 one-bit cells in which bit `x` is column `x`.
Cell `FB[y*64 + x]` is bit `x` of row `y` (DESIGN CHOICE notes/assumptions/19.md). -/
abbrev Framebuffer := Vector (BitVec 64) 32

/-- `FAULT` (R30, R230): no fault, or one of the three faults of the core, under the spec's names.
The 2-bit code of each is `FaultLatch.code` (Machine/Ops.lean). -/
inductive FaultLatch where
  /-- Code 0: the core runs. -/
  | none
  /-- Code 1: the fetched word is illegal (R231). -/
  | unknownInstruction
  /-- Code 2: a call with a full call stack (R232). -/
  | stackOverflow
  /-- Code 3: a return with an empty call stack (R232). -/
  | stackUnderflow
  deriving DecidableEq, Repr

/-- Everything the spec gives the core, then four fields of the model's own. -/
structure State where
  /-- `V[0] .. V[15]` (R20); `V[15]` is VF (R21). -/
  v : Vector Byte 16
  /-- `I` (R23). -/
  index : Word
  /-- `PC` (R22). -/
  pc : Word
  /-- `STACK[0] .. STACK[15]` (R24). -/
  stack : Vector Word 16
  /-- `SP`, the number of return addresses on the stack (R25), 5 bits. -/
  sp : BitVec 5
  /-- `DT` (R26). -/
  dt : Byte
  /-- `ST` (R27). -/
  st : Byte
  /-- `FB` (R28). -/
  fb : Framebuffer
  /-- `MEM` (R29). -/
  mem : Memory
  /-- `FAULT` (R30). -/
  fault : FaultLatch
  /-- `FAULT_WORD` (R30). -/
  faultWord : Word
  /-- The model's own: the straps the host holds constant for the run (R33), notes/assumptions/2.md. -/
  straps : Straps
  /-- The model's own: the inputs the host presents to the next step (R32), notes/assumptions/1.md. -/
  input : StepInput
  /-- The model's own: the inputs of the steps after that, the nearest first, as far as they are listed. -/
  schedule : List StepInput
  /-- The model's own: how many free inputs (`Config.hostInput`) have been drawn. -/
  draws : Nat
  deriving DecidableEq, Repr

/-- Why the machine stops. The spec's own three faults are NOT here: they are latched in `State.fault` and the step that raises one answers a next state (R233). -/
inductive Fault where
  /-- Raised by CALL and RET when SP is 17 .. 31, which R36 says is never reached and for which R123 and R121 name no stack entry.
  Safe: no state with SP at most 16 meets it, and the invariant of Sys2Proof/Safety.lean keeps SP there. -/
  | stackPointerBeyondCapacity
  deriving DecidableEq, Repr

/-- Why an instruction has no meaning. -/
inductive Refusal where
  /-- Raised by an arm of `exec` whose instruction has no meaning yet. Safe: nothing is said of the machine there. No arm raises it now. -/
  | notModelled (mnemonic : String)
  deriving DecidableEq, Repr

/-- The outcome of a step or of an instruction's execute phase. -/
abbrev Result := Host.Outcome State Fault Refusal

/-- The machine after reset with no program image (R37, R270, R271): PC at 0x0200, everything else zero, the font in place as what memory reads as.
The zeros of V, I, SP, STACK, DT, ST and FB are the spec's decision (notes/assumptions/5.md), those of memory likewise (4.md).
The straps, the font and the first step's inputs are the host's, of which nothing is known (2.md, 3.md, 1.md). -/
def State.reset : State where
  v := Vector.replicate 16 0#8
  index := 0x0000#16
  pc := 0x0200#16
  stack := Vector.replicate 16 0#16
  sp := 0#5
  dt := 0#8
  st := 0#8
  fb := Vector.replicate 32 0#64
  mem := { font := Config.font, cells := [] }
  fault := .none
  faultWord := 0x0000#16
  straps := Config.straps
  input := Config.hostInput 0
  schedule := []
  draws := 1

end Sys2Proof.Machine
end

