-- ==== Sys2Proof/Machine/Memory.lean ====
section
/-! DEFINITION. The memory operations (spec/20_memory.md R50 to R56): every address is reduced modulo 4096 and no access faults. -/

namespace Sys2Proof.Machine

/-- What a cell nothing has written reads as: the font at 0x050 .. 0x09F, 0x00 elsewhere (R37, R56; notes/assumptions/4.md). -/
def unlistedByte (font : Vector Byte 80) (a : Nat) : Byte :=
  if h : fontBase ≤ a ∧ a - fontBase < 80 then font[a - fontBase]'h.2 else 0x00#8

/-- The canonical form: addresses strictly rising and below 4096, and no cell listed at the value it reads as unlisted. -/
abbrev Memory.wf (m : Memory) : Prop :=
  m.cells.Pairwise (fun c d => c.1 < d.1) ∧ ∀ c ∈ m.cells, c.1 < memSize ∧ c.2 ≠ unlistedByte m.font c.1

/-- The byte listed at `a`, or `unlisted` where none is. -/
def lookupCell (cells : List Host.Cell) (a : Nat) (unlisted : Byte) : Byte :=
  match cells with
  | [] => unlisted
  | (k, b) :: rest => if k = a then b else lookupCell rest a unlisted

/-- List a cell before the first listed cell of a higher address. -/
def insertCell (cells : List Host.Cell) (a : Nat) (b : Byte) : List Host.Cell :=
  match cells with
  | [] => [(a, b)]
  | (k, c) :: rest => if a < k then (a, b) :: (k, c) :: rest else (k, c) :: insertCell rest a b

/-- The value of the cell `MEM[a]`, `a` already below 4096. -/
def Memory.cell (m : Memory) (a : Nat) : Byte := lookupCell m.cells a (unlistedByte m.font a)

/-- Set the cell `MEM[a]`, `a` already below 4096, keeping the canonical form. -/
def Memory.setCell (m : Memory) (a : Nat) (b : Byte) : Memory :=
  let others := m.cells.filter (fun c => c.1 != a)
  { m with cells := if b = unlistedByte m.font a then others else insertCell others a b }

/-- `MemRead(a, 1)` (R51, R52). -/
def Memory.read (m : Memory) (a : Nat) : Byte := Memory.cell m (a % memSize)

/-- `MemWrite(a, 1, b)` (R51, R52). -/
def Memory.write (m : Memory) (a : Nat) (b : Byte) : Memory := Memory.setCell m (a % memSize) b

/-- `MemWrite` of each byte of a list in turn, at rising addresses from `a` (R55). -/
def Memory.writeBytes (m : Memory) (a : Nat) (bytes : List Byte) : Memory :=
  match bytes with
  | [] => m
  | b :: rest => Memory.writeBytes (Memory.write m a b) (a + 1) rest

/-- `Fetch16(a)` (R53): the byte at the lower address is the high byte of the word. -/
def Memory.fetchWord (m : Memory) (a : Nat) : Word :=
  wordOfBytes (Memory.read m a) (Memory.read m (a + 1))

end Sys2Proof.Machine
end

