-- ==== Sys2Proof/Machine/Ops.lean ====
section
/-! DEFINITION. The shared operations over registers, the call stack, the timers, the fault latch and the step's inputs. -/

namespace Sys2Proof.Machine

/-! ## Registers -/

/-- `V[x]` (R20). -/
def State.readV (s : State) (x : Nibble) : Byte := s.v[x.toNat]

/-- `V[x] <- b` (R20). -/
def State.writeV (s : State) (x : Nibble) (b : Byte) : State := { s with v := s.v.set x.toNat b }

/-- `I <- w` (R23): the whole 16-bit register, never masked. -/
def State.writeIndex (s : State) (w : Word) : State := { s with index := w }

/-- `PC <- w` (R22): the whole 16-bit register, never masked. -/
def State.writePc (s : State) (w : Word) : State := { s with pc := w }

/-- `DT <- b` (R26). -/
def State.writeDt (s : State) (b : Byte) : State := { s with dt := b }

/-- `ST <- b` (R27). -/
def State.writeSt (s : State) (b : Byte) : State := { s with st := b }

/-- The memory after an instruction's stores. -/
def State.writeMem (s : State) (m : Memory) : State := { s with mem := m }

/-- The framebuffer after an instruction's drawing. -/
def State.writeFb (s : State) (fb : Framebuffer) : State := { s with fb := fb }

/-- `V[x] <- r`, then `VF <- f`: the flag is written last, so with `x = 15` VF ends as the flag
(R150; the order is the spec's decision D18, notes/assumptions/9.md). -/
def State.writeResultAndFlag (s : State) (x : Nibble) (r f : Byte) : State := (s.writeV x r).writeV 0xF#4 f

/-! ## The call stack -/

/-- `STACK[k]` (R24). -/
def State.readStack (s : State) (k : Nibble) : Word := s.stack[k.toNat]

/-- A push with SP below 16 (R25): `STACK[SP] <- w`, then `SP <- SP + 1`. -/
def State.pushStack (s : State) (w : Word) : State :=
  { s with stack := s.stack.set (s.sp.setWidth 4).toNat w, sp := s.sp + 1#5 }

/-- A pop with SP above 0 (R25): `SP <- SP - 1`, then `PC <- STACK[SP]`; the entry keeps its bits. -/
def State.popStack (s : State) : State :=
  { s with sp := s.sp - 1#5, pc := s.readStack ((s.sp - 1#5).setWidth 4) }

/-! ## The fault latch -/

/-- The 2-bit code of `FAULT` (R30, R230; the numbers are the spec's decision D9). -/
def FaultLatch.code (f : FaultLatch) : BitVec 2 :=
  match f with
  | .none => 0#2
  | .unknownInstruction => 1#2
  | .stackOverflow => 2#2
  | .stackUnderflow => 3#2

/-- Taking an exception: `raise F(w)` (R11, R233). It latches the cause and the instruction word and writes nothing else: there is no handler, no vector,
no saved PC and no mode. There is no return from a fault (R235): only reset clears the latch, so no operation stands beside this one. -/
def raise (f : FaultLatch) (w : Word) (s : State) : State := { s with fault := f, faultWord := w }

/-- Halted: `FAULT != 0` (R101, R234). -/
def halted (s : State) : Bool := s.fault != .none

/-! ## The phases of a step before decode, and the host's next inputs -/

/-- Phase 1 (R102): the word at PC. -/
def fetch (s : State) : Word := Memory.fetchWord s.mem s.pc.toNat

/-- Phase 2 (R103): `PC <- (PC + 2) mod 2^16`. -/
def advancePc (s : State) : State := s.writePc (s.pc + 2#16)

/-- One timer less the ticks, clamped at zero (R104). -/
def decrementTimer (t : Byte) (ticks : Nat) : Byte := BitVec.ofNat 8 (t.toNat - ticks)

/-- Phase 3 (R104): both timers by this step's `elapsedTicks`, each on its own. -/
def updateTimers (s : State) : State :=
  (s.writeDt (decrementTimer s.dt s.input.elapsedTicks)).writeSt (decrementTimer s.st s.input.elapsedTicks)

/-- Phases 2 and 3, which every step that is not halted makes whatever it then executes (R103, R104). -/
def beginStep (s : State) : State := updateTimers (advancePc s)

/-- After a step the host presents the inputs of the next one (R107, R273): the next listed ones, else a free value (notes/assumptions/1.md). -/
def presentNextInput (s : State) : State :=
  match s.schedule with
  | i :: rest => { s with input := i, schedule := rest }
  | [] => { s with input := Config.hostInput s.draws, draws := s.draws + 1 }

/-- Apply a change to the next state of an outcome, if there is one. -/
def onNext (f : State → State) (r : Result) : Result :=
  match r with
  | .next s => .next (f s)
  | .fault e => .fault e
  | .refused e => .refused e

/-! ## The outputs (R34, R242): functions of the state -/

/-- `sound_active`: 1 when ST is above 0 (R27, R34). -/
def soundActive (s : State) : Bool := decide (0 < s.st.toNat)

/-- `fault`: the code in the latch (R34). -/
def faultOutput (s : State) : BitVec 2 := s.fault.code

/-- `fault_word` (R34). -/
def faultWordOutput (s : State) : Word := s.faultWord

end Sys2Proof.Machine
end

