-- ==== Sys2Proof/Machine/Boot.lean ====
section
/-! DEFINITION. Reset with a program image (spec/70_reset_and_hazards.md R270 to R272): the host's load, which is part of reset and of no step;
and the placing of one word where the next step fetches. -/

namespace Sys2Proof.Machine

/-- The state after reset with a font and a program image (R270): the font at 0x050, the image's bytes verbatim from 0x200, or none when the loader refuses it with
LoadError (R236, R272). LoadError is the loader's and has no code in the fault latch. PC is 0x0200 in `State.reset` already. -/
def resetWithImage (font : Vector Byte 80) (image : List Byte) : Option State :=
  if imageWellFormed image then
    some (State.reset.writeMem (Memory.writeBytes { font := font, cells := [] } progBase image))
  else none

/-- The word `w` placed at PC, high byte first (R53, R102), in a core that runs: the cause in the fault latch is cleared, since a halted core fetches nothing
(notes/assumptions/17.md). -/
def placeWord (w : Word) (s : State) : State :=
  { s with
    mem := Memory.writeBytes s.mem s.pc.toNat [wordHi w, wordLo w]
    fault := .none }

end Sys2Proof.Machine
end

