-- ==== Sys2Proof/Machine/Flags.lean ====
section
/-! DEFINITION. Every flag computation (spec/10_state.md R21, spec/43_alu.md R151). VF is the only flag; a flag written is the whole byte 0x00 or 0x01.
Each is a function of the operands as read before any write (R150). -/

namespace Sys2Proof.Machine

/-- A flag as the byte written to VF (R151). -/
def flagByte (f : Bool) : Byte := if f then 0x01#8 else 0x00#8

/-- 8xy4 (R156): the unsigned sum exceeds 255. -/
def carryOfAdd (a b : Byte) : Bool := decide (a.toNat + b.toNat > 255)

/-- 8xy5 and 8xy7 (R157, R159): `a - b` needs no borrow. -/
def noBorrow (a b : Byte) : Bool := decide (a.toNat ≥ b.toNat)

/-- 8xy6 (R158): bit 0, the bit shifted out to the right. -/
def shiftedOutRight (a : Byte) : Bool := a.getLsbD 0

/-- 8xyE (R160): bit 7, the bit shifted out to the left. -/
def shiftedOutLeft (a : Byte) : Bool := a.getLsbD 7

/-- Fx1E (R172): the sum exceeds 16 bits, not 12. -/
def indexOverflow (i : Word) (a : Byte) : Bool := decide (i.toNat + a.toNat > 0xFFFF)

end Sys2Proof.Machine
end

