-- ==== Sys2Proof/Machine/Operands.lean ====
section
/-! DEFINITION. Every operand form that is not a plain register or immediate (spec/30_encoding.md R73): zero-extended addresses, the operands the straps choose,
the effective addresses of R177, key numbers and the register block. -/

namespace Sys2Proof.Machine

/-- `zext_16(nnn)` (R73). -/
def addressOperand (nnn : Addr12) : Word := nnn.setWidth 16

/-- The operand of 8xy6 and 8xyE (R158, R160): V[y] when `Q_SHIFT`, else V[x]. -/
def shiftOperand (s : State) (x y : Nibble) : Byte :=
  if s.straps.qShift then s.readV y else s.readV x

/-- The offset of Bnnn (R81, R128): V[x] with `x = ir[11:8]`, the top nibble of `nnn`, when `Q_JUMP_VX`, else V[0]. -/
def jumpOffset (s : State) (nnn : Addr12) : Byte :=
  if s.straps.qJumpVx then s.readV (nnn.extractLsb' 8 4) else s.readV 0#4

/-- The address value at offset `k` from I (R177); memory reduces it modulo 4096 at the access. -/
def indexAddress (s : State) (k : Nat) : Nat := s.index.toNat + k

/-- `I + x + 1` modulo 2^16, which Fx55 and Fx65 write when their strap is set (R171, R175, R176). -/
def indexPastBlock (s : State) (x : Nibble) : Word := s.index + x.setWidth 16 + 1#16

/-- The key Ex9E and ExA1 test (R216): the low four bits of V[x] (the spec's decision D15, notes/assumptions/11.md). -/
def keyOperand (s : State) (x : Nibble) : Nibble := (s.readV x).extractLsb' 0 4

/-- Whether key `k` is down in this step's snapshot (R32, R210). -/
def keyPressed (s : State) (k : Nibble) : Bool := s.input.keys.getLsbD k.toNat

/-- The lowest `k` with `keys[k] = 1` (R212; lowest is the spec's decision D16, notes/assumptions/12.md); used only when some key is down. -/
def lowestPressedKey (keys : BitVec 16) : Nat := ((List.range 16).find? (fun k => keys.getLsbD k)).getD 0

/-- The bytes of V[0] .. V[x] in order (R175). -/
def registerBlock (s : State) (x : Nibble) : List Byte :=
  (List.range (x.toNat + 1)).map (fun k => s.readV (BitVec.ofNat 4 k))

/-- The three decimal digits of a byte, hundreds first (R174). -/
def decimalDigits (a : Byte) : List Byte :=
  [BitVec.ofNat 8 (a.toNat / 100), BitVec.ofNat 8 (a.toNat / 10 % 10), BitVec.ofNat 8 (a.toNat % 10)]

/-- The font address of the whole byte `a` (R173): `0x0050 + 5 * a`, not reduced to a digit (the spec's decision D23, notes/assumptions/13.md). -/
def fontAddress (a : Byte) : Word := BitVec.ofNat 16 (fontBase + 5 * a.toNat)

end Sys2Proof.Machine
end

