-- ==== Sys2Proof/Machine/Alu.lean ====
section
/-! DEFINITION. The register-register ALU, family 8 (spec/43_alu.md). Operands are read first, the result is written next and the flag last (R150). -/

namespace Sys2Proof.Machine

/-- 8xy0 (R152). -/
def execLdReg (x y : Nibble) (s : State) : Result := .next (s.writeV x (s.readV y))

/-- 8xy1 (R153): VF is not written. -/
def execOrReg (x y : Nibble) (s : State) : Result := .next (s.writeV x (s.readV x ||| s.readV y))

/-- 8xy2 (R154): VF is not written. -/
def execAndReg (x y : Nibble) (s : State) : Result := .next (s.writeV x (s.readV x &&& s.readV y))

/-- 8xy3 (R155): VF is not written. -/
def execXorReg (x y : Nibble) (s : State) : Result := .next (s.writeV x (s.readV x ^^^ s.readV y))

/-- 8xy4 (R156). -/
def execAddReg (x y : Nibble) (s : State) : Result :=
  .next (s.writeResultAndFlag x (s.readV x + s.readV y) (flagByte (carryOfAdd (s.readV x) (s.readV y))))

/-- 8xy5 (R157). -/
def execSubReg (x y : Nibble) (s : State) : Result :=
  .next (s.writeResultAndFlag x (s.readV x - s.readV y) (flagByte (noBorrow (s.readV x) (s.readV y))))

/-- 8xy6 (R158). -/
def execShr (x y : Nibble) (s : State) : Result :=
  .next (s.writeResultAndFlag x (shiftOperand s x y >>> 1) (flagByte (shiftedOutRight (shiftOperand s x y))))

/-- 8xy7 (R159). -/
def execSubn (x y : Nibble) (s : State) : Result :=
  .next (s.writeResultAndFlag x (s.readV y - s.readV x) (flagByte (noBorrow (s.readV y) (s.readV x))))

/-- 8xyE (R160). -/
def execShl (x y : Nibble) (s : State) : Result :=
  .next (s.writeResultAndFlag x (shiftOperand s x y <<< 1) (flagByte (shiftedOutLeft (shiftOperand s x y))))

end Sys2Proof.Machine
end

