-- ==== Sys2Proof/Machine/Control.lean ====
section
/-! DEFINITION. Control transfer (spec/41_control_flow.md). In every meaning `s.pc` is already the address of the instruction plus 2 (R103). -/

namespace Sys2Proof.Machine

/-- A skip (R120): `PC <- (PC + 2) mod 2^16` when the condition holds, else nothing. -/
def skipIf (c : Bool) (s : State) : State := if c then s.writePc (s.pc + 2#16) else s

/-- 00EE (R121). SP is tested before any write. -/
def execRet (s : State) : Result :=
  if s.sp.toNat = 0 then .next (raise .stackUnderflow (encode .ret) s)
  else if s.sp.toNat ≤ stackDepth then .next s.popStack
  else .fault .stackPointerBeyondCapacity

/-- 1nnn (R122). -/
def execJp (nnn : Addr12) (s : State) : Result := .next (s.writePc (addressOperand nnn))

/-- 2nnn (R123). SP is tested before any write; the pushed PC is the advanced one. -/
def execCall (nnn : Addr12) (s : State) : Result :=
  if s.sp.toNat = stackDepth then .next (raise .stackOverflow (encode (.call nnn)) s)
  else if s.sp.toNat < stackDepth then .next ((s.pushStack s.pc).writePc (addressOperand nnn))
  else .fault .stackPointerBeyondCapacity

/-- 3xnn (R124). -/
def execSeImm (x : Nibble) (nn : Byte) (s : State) : Result := .next (skipIf (s.readV x == nn) s)

/-- 4xnn (R125). -/
def execSneImm (x : Nibble) (nn : Byte) (s : State) : Result := .next (skipIf (s.readV x != nn) s)

/-- 5xy0 (R126). -/
def execSeReg (x y : Nibble) (s : State) : Result := .next (skipIf (s.readV x == s.readV y) s)

/-- 9xy0 (R127). -/
def execSneReg (x y : Nibble) (s : State) : Result := .next (skipIf (s.readV x != s.readV y) s)

/-- Bnnn (R128, R81): the 16-bit sum is written whole. -/
def execJpV0 (nnn : Addr12) (s : State) : Result :=
  .next (s.writePc (addressOperand nnn + (jumpOffset s nnn).setWidth 16))

end Sys2Proof.Machine
end

