-- ==== Sys2Proof/Machine/Display.lean ====
section
/-! DEFINITION. The framebuffer instructions (spec/45_display.md). -/

namespace Sys2Proof.Machine

/-- `FB[k]` (R190), `k = y*64 + x`: bit `x` of row `y`. -/
def Framebuffer.cell (fb : Framebuffer) (k : Nat) : Bool := (fb.getD (k / 64) 0#64).getLsbD (k % 64)

/-- `FB[k] <- FB[k] ^ 1` (R192). -/
def Framebuffer.flip (fb : Framebuffer) (k : Nat) : Framebuffer :=
  fb.setIfInBounds (k / 64) (fb.getD (k / 64) 0#64 ^^^ BitVec.twoPow 64 (k % 64))

/-- The host's view of the framebuffer (R34, R242): all 2048 bits. -/
def framebufferOutput (s : State) (k : Nat) : Bool := Framebuffer.cell s.fb k

/-- The framebuffer so far and whether a drawn pixel has collided. -/
abbrev Drawing := Framebuffer × Bool

/-- One column of one sprite row (R192): clipped right of column 63; a 1 bit flips the cell and collides when it was 1.
`col = 0` is bit 7 of the byte (the spec's decision D21, notes/assumptions/10.md). -/
def drawColumn (b : Byte) (x0 y col : Nat) (d : Drawing) : Drawing :=
  if x0 + col > 63 then d
  else if b.getLsbD (7 - col) then
    (Framebuffer.flip d.1 (y * 64 + (x0 + col)), d.2 || Framebuffer.cell d.1 (y * 64 + (x0 + col)))
  else d

/-- The first `count` columns of one sprite row, left to right (R192). -/
def drawColumns (b : Byte) (x0 y : Nat) (d : Drawing) (count : Nat) : Drawing :=
  match count with
  | 0 => d
  | col + 1 => drawColumn b x0 y col (drawColumns b x0 y d col)

/-- The first `count` rows of a sprite, top to bottom, row `r` read from I + r and clipped below row 31 (R192, R193). -/
def drawRows (s : State) (x0 y0 : Nat) (d : Drawing) (count : Nat) : Drawing :=
  match count with
  | 0 => d
  | row + 1 =>
    if y0 + row > 31 then drawRows s x0 y0 d row
    else drawColumns (Memory.read s.mem (indexAddress s row)) x0 (y0 + row) (drawRows s x0 y0 d row) 8

/-- The sprite of Dxyn drawn on the framebuffer (R192): the origin wraps once, V[x] mod 64 and V[y] mod 32, as read before VF is written
(the spec's decision D19, notes/assumptions/10.md). -/
def drawSprite (x y n : Nibble) (s : State) : Drawing :=
  drawRows s ((s.readV x).toNat % 64) ((s.readV y).toNat % 32) (s.fb, false) n.toNat

/-- 00E0 (R191). -/
def execCls (s : State) : Result := .next (s.writeFb (Vector.replicate 32 0#64))

/-- Dxyn (R192): the framebuffer, and VF = 1 exactly when a drawn pixel collided (R194). -/
def execDrw (x y n : Nibble) (s : State) : Result :=
  .next ((s.writeFb (drawSprite x y n s).1).writeV 0xF#4 (flagByte (drawSprite x y n s).2))

end Sys2Proof.Machine
end

