-- ==== Sys2Proof/Machine/Immediate.lean ====
section
/-! DEFINITION. Register immediates and random (spec/42_immediate_random.md). -/

namespace Sys2Proof.Machine

/-- 6xnn (R140). -/
def execLdImm (x : Nibble) (nn : Byte) (s : State) : Result := .next (s.writeV x nn)

/-- 7xnn (R141): modulo 256, no flag. -/
def execAddImm (x : Nibble) (nn : Byte) (s : State) : Result := .next (s.writeV x (s.readV x + nn))

/-- Cxnn (R142): this step's random byte, masked. -/
def execRnd (x : Nibble) (nn : Byte) (s : State) : Result := .next (s.writeV x (s.input.rnd &&& nn))

end Sys2Proof.Machine
end

