-- ==== Sys2Proof/Machine/Index.lean ====
section
/-! DEFINITION. The index register and memory (spec/44_index_memory.md). -/

namespace Sys2Proof.Machine

/-- Annn (R170). -/
def execLdI (nnn : Addr12) (s : State) : Result := .next (s.writeIndex (addressOperand nnn))

/-- VF after Fx1E (R172): 1 on 16-bit overflow, else 0 when `FX1E_CLEARS_VF`, else as it was. -/
def writeIndexFlag (overflow : Bool) (s : State) : State :=
  if overflow then s.writeV 0xF#4 0x01#8
  else if s.straps.fx1eClearsVf then s.writeV 0xF#4 0x00#8
  else s

/-- Fx1E (R172): the flag write comes after the I write. -/
def execAddI (x : Nibble) (s : State) : Result :=
  .next (writeIndexFlag (indexOverflow s.index (s.readV x)) (s.writeIndex (s.index + (s.readV x).setWidth 16)))

/-- Fx29 (R173). -/
def execLdF (x : Nibble) (s : State) : Result := .next (s.writeIndex (fontAddress (s.readV x)))

/-- Fx33 (R174): three stores, hundreds at I; I is not changed. -/
def execLdB (x : Nibble) (s : State) : Result :=
  .next (s.writeMem (Memory.writeBytes s.mem (indexAddress s 0) (decimalDigits (s.readV x))))

/-- Fx55 (R175): x+1 stores, V[0] at I; then I past the block when `Q_STORE_INC`. -/
def execStoreRegs (x : Nibble) (s : State) : Result :=
  .next ((s.writeMem (Memory.writeBytes s.mem (indexAddress s 0) (registerBlock s x))).writeIndex
    (if s.straps.qStoreInc then indexPastBlock s x else s.index))

/-- `for i = 0 .. count-1: V[i] <- MemRead(I + i, 1)` (R176). -/
def loadRegisters (s : State) (count : Nat) : State :=
  match count with
  | 0 => s
  | k + 1 => (loadRegisters s k).writeV (BitVec.ofNat 4 k) (Memory.read s.mem (indexAddress s k))

/-- Fx65 (R176): x+1 loads, V[0] from I; then I past the block when `Q_LOAD_INC`. -/
def execLoadRegs (x : Nibble) (s : State) : Result :=
  .next ((loadRegisters s (x.toNat + 1)).writeIndex (if s.straps.qLoadInc then indexPastBlock s x else s.index))

end Sys2Proof.Machine
end

