-- ==== Sys2Proof/Machine/Keypad.lean ====
section
/-! DEFINITION. The keypad and timer instructions (spec/46_keypad_timers.md). The timers are those after this step's update (R104). -/

namespace Sys2Proof.Machine

/-- Ex9E (R210). -/
def execSkp (x : Nibble) (s : State) : Result := .next (skipIf (keyPressed s (keyOperand s x)) s)

/-- ExA1 (R211). -/
def execSknp (x : Nibble) (s : State) : Result := .next (skipIf (!keyPressed s (keyOperand s x)) s)

/-- Fx0A (R212): with no key down PC goes back to this instruction, else V[x] takes the lowest key that is down. -/
def execLdVxKey (x : Nibble) (s : State) : Result :=
  .next (if s.input.keys = 0x0000#16 then s.writePc (s.pc - 2#16)
    else s.writeV x (BitVec.ofNat 8 (lowestPressedKey s.input.keys)))

/-- Fx07 (R213). -/
def execLdVxDt (x : Nibble) (s : State) : Result := .next (s.writeV x s.dt)

/-- Fx15 (R214). -/
def execLdDtVx (x : Nibble) (s : State) : Result := .next (s.writeDt (s.readV x))

/-- Fx18 (R215). -/
def execLdStVx (x : Nibble) (s : State) : Result := .next (s.writeSt (s.readV x))

end Sys2Proof.Machine
end

