-- ==== Sys2Proof/Machine/Cycle.lean ====
section
/-! DEFINITION. The five phases of a step as one function (spec/40_step_cycle.md R100 to R108); `step` in Machine/Step.lean is this function. -/

namespace Sys2Proof.Machine

/-- Phases 4 and 5 (R105, R106): decode the word, then raise UnknownInstruction or execute. -/
def decodeAndExecute (ir : Word) (s : State) : Result :=
  match decode ir with
  | .ok i => exec i s
  | .error _ => .next (raise .unknownInstruction ir s)

/-- The step of R108. A halted core is left as it is (R101); otherwise the five phases run, and then the host presents the next step's inputs. -/
def cycle (s : State) : Result :=
  if halted s then .next s
  else onNext presentNextInput (decodeAndExecute (fetch s) (beginStep s))

end Sys2Proof.Machine
end

