-- ==== Sys2Proof/Machine/Step.lean ====
section
/-! DEFINITION. The one transition of the core (spec/40_step_cycle.md R100), and the placing of a word where it fetches. -/

namespace Sys2Proof.Machine

/-- The step (R108). -/
def step (s : State) : Host.Outcome State Fault Refusal := cycle s

/-- `s` with the instruction word `w` stored where the next step fetches (notes/assumptions/17.md). -/
def State.withFetchWord (s : State) (nbits w : Nat) : State := placeWord (tableWord nbits w) s

end Sys2Proof.Machine
end

