-- ==== Sys2Proof/Safety.lean ====
section
/-! DEFINITION. What a good state is, in the terms claims use (spec/60_exceptions.md R233, R234; spec/40_step_cycle.md R109; spec/10_state.md R25). -/

namespace Sys2Proof.Machine

/-- R234: a run has gone well so far only while the latch is clear; a halted state is never a good final state. -/
def running (s : State) : Prop := s.fault = .none

/-- R109: the program is done when a core that runs stands at the address `nnn` and the word there is the jump to itself, `1nnn`. This is what the model means by
a program that has ended well; the one other end is a fault, a state that is not `running` (notes/assumptions/25.md). -/
def doneAt (nnn : Addr12) (s : State) : Prop :=
  running s ∧ s.pc = addressOperand nnn ∧ fetch s = encode (.jp nnn)

/-- The latch agrees with the machine (R30, R231 to R233): a clear latch holds the word 0; a set latch holds the word that stands at PC - 2 (the address of the
faulting instruction), and that word is one that raises that fault with the call stack as it is. -/
def LatchConsistent (s : State) : Prop :=
  match s.fault with
  | .none => s.faultWord = 0x0000#16
  | .unknownInstruction =>
    s.faultWord = Memory.fetchWord s.mem (s.pc - 2#16).toNat ∧ ∃ e, decode s.faultWord = .error e
  | .stackOverflow =>
    s.faultWord = Memory.fetchWord s.mem (s.pc - 2#16).toNat ∧ (∃ nnn, decode s.faultWord = .ok (.call nnn)) ∧ s.sp.toNat = stackDepth
  | .stackUnderflow =>
    s.faultWord = Memory.fetchWord s.mem (s.pc - 2#16).toNat ∧ decode s.faultWord = .ok .ret ∧ s.sp.toNat = 0

/-- The invariant of the machine: memory in canonical form, `0 <= SP <= 16` (R25), and the latch consistent. -/
def Inv (s : State) : Prop :=
  Memory.wf s.mem ∧ s.sp.toNat ≤ stackDepth ∧ LatchConsistent s

end Sys2Proof.Machine
end

