-- ==== Sys2Proof/Certificates/Slice0/Obligations.lean ====
section
/-! DEFINITION. The statements for the provers, from the numbered rules of spec/. A frame is written `t = { s with v := t.v }`: every field of the state but the
named ones is as it was, memory included. `exec i s` is the execute phase, so `s.pc` is already the address of the instruction plus 2 (R103). -/

namespace Sys2Proof.Spec

open Sys2Proof.Machine

/-! ### The encodings as the instruction rules write them -/

/-- `base | nnn`. -/
def wordNNN (base : Word) (nnn : Addr12) : Word := base ||| nnn.setWidth 16

/-- `base | x << 8`. -/
def wordX (base : Word) (x : Nibble) : Word := base ||| x.setWidth 16 <<< 8

/-- `base | x << 8 | nn`. -/
def wordXNN (base : Word) (x : Nibble) (nn : Byte) : Word := base ||| x.setWidth 16 <<< 8 ||| nn.setWidth 16

/-- `base | x << 8 | y << 4`. -/
def wordXY (base : Word) (x y : Nibble) : Word := base ||| x.setWidth 16 <<< 8 ||| y.setWidth 16 <<< 4

/-- `base | x << 8 | y << 4 | n`. -/
def wordXYN (base : Word) (x y n : Nibble) : Word :=
  base ||| x.setWidth 16 <<< 8 ||| y.setWidth 16 <<< 4 ||| n.setWidth 16

/-! ### The tests of R74 -/

/-- What a word must satisfy to be an instruction, family by family (R74). -/
def legalWord (w : Word) : Prop :=
  let n1 := w.toNat / 0x1000
  let n4 := w.toNat % 0x10
  let nn := w.toNat % 0x100
  (n1 = 0x0 ∧ (w = 0x00E0#16 ∨ w = 0x00EE#16)) ∨
  n1 ∈ [0x1, 0x2, 0x3, 0x4, 0x6, 0x7, 0xA, 0xB, 0xC, 0xD] ∨
  ((n1 = 0x5 ∨ n1 = 0x9) ∧ n4 = 0) ∨
  (n1 = 0x8 ∧ n4 ∈ [0x0, 0x1, 0x2, 0x3, 0x4, 0x5, 0x6, 0x7, 0xE]) ∨
  (n1 = 0xE ∧ nn ∈ [0x9E, 0xA1]) ∨
  (n1 = 0xF ∧ nn ∈ [0x07, 0x0A, 0x15, 0x18, 0x1E, 0x29, 0x33, 0x55, 0x65])

/-! ### The write column of R38 -/

/-- The general registers an instruction may write, VF as a flag included. -/
def writesRegister (i : Instr) (r : Nibble) : Prop :=
  match i with
  | .ldImm x _ | .addImm x _ | .rnd x _ | .ldVxDt x | .ldVxKey x => r = x
  | .ldReg x _ | .orReg x _ | .andReg x _ | .xorReg x _ => r = x
  | .addReg x _ | .subReg x _ | .shr x _ | .subn x _ | .shl x _ => r = x ∨ r = 0xF#4
  | .drw _ _ _ | .addI _ => r = 0xF#4
  | .loadRegs x => r.toNat ≤ x.toNat
  | .cls | .ret | .jp _ | .call _ | .seImm _ _ | .sneImm _ _ | .seReg _ _ | .sneReg _ _ | .ldI _ | .jpV0 _ => False
  | .skp _ | .sknp _ | .ldDtVx _ | .ldStVx _ | .ldF _ | .ldB _ | .storeRegs _ => False

/-- The instructions whose write column names PC. -/
def writesPc (i : Instr) : Prop :=
  match i with
  | .ret | .jp _ | .call _ | .seImm _ _ | .sneImm _ _ | .seReg _ _ | .sneReg _ _ | .jpV0 _ => True
  | .skp _ | .sknp _ | .ldVxKey _ => True
  | .cls | .ldImm _ _ | .addImm _ _ | .ldReg _ _ | .orReg _ _ | .andReg _ _ | .xorReg _ _ | .addReg _ _ | .subReg _ _ => False
  | .shr _ _ | .subn _ _ | .shl _ _ | .ldI _ | .rnd _ _ | .drw _ _ _ | .ldVxDt _ | .ldDtVx _ | .ldStVx _ => False
  | .addI _ | .ldF _ | .ldB _ | .storeRegs _ | .loadRegs _ => False

/-- The instructions whose write column names I; Fx55 and Fx65 only under their straps. -/
def writesIndex (i : Instr) (s : State) : Prop :=
  match i with
  | .ldI _ | .addI _ | .ldF _ => True
  | .storeRegs _ => s.straps.qStoreInc = true
  | .loadRegs _ => s.straps.qLoadInc = true
  | .cls | .ret | .jp _ | .call _ | .seImm _ _ | .sneImm _ _ | .seReg _ _ | .ldImm _ _ | .addImm _ _ | .ldReg _ _ => False
  | .orReg _ _ | .andReg _ _ | .xorReg _ _ | .addReg _ _ | .subReg _ _ | .shr _ _ | .subn _ _ | .shl _ _ | .sneReg _ _ => False
  | .jpV0 _ | .rnd _ _ | .drw _ _ _ | .skp _ | .sknp _ | .ldVxDt _ | .ldVxKey _ | .ldDtVx _ | .ldStVx _ | .ldB _ => False

/-- The number of bytes an instruction stores, at I and the addresses after it (R55). -/
def storedBytes (i : Instr) : Nat :=
  match i with
  | .ldB _ => 3
  | .storeRegs x => x.toNat + 1
  | .cls | .ret | .jp _ | .call _ | .seImm _ _ | .sneImm _ _ | .seReg _ _ | .ldImm _ _ | .addImm _ _ | .ldReg _ _ => 0
  | .orReg _ _ | .andReg _ _ | .xorReg _ _ | .addReg _ _ | .subReg _ _ | .shr _ _ | .subn _ _ | .shl _ _ | .sneReg _ _ => 0
  | .ldI _ | .jpV0 _ | .rnd _ _ | .drw _ _ _ | .skp _ | .sknp _ | .ldVxDt _ | .ldVxKey _ | .ldDtVx _ | .ldStVx _ => 0
  | .addI _ | .ldF _ | .loadRegs _ => 0

/-- What R38's write column allows an instruction to change, and the host's side of the state, which no instruction writes. -/
def changesOnlyItsColumn (i : Instr) (s t : State) : Prop :=
  (∀ r, ¬ writesRegister i r → t.readV r = s.readV r) ∧
  (¬ writesPc i → t.pc = s.pc) ∧
  (¬ writesIndex i s → t.index = s.index) ∧
  (i ≠ .ret → (∀ nnn, i ≠ .call nnn) → t.sp = s.sp ∧ t.fault = s.fault ∧ t.faultWord = s.faultWord) ∧
  ((∀ nnn, i ≠ .call nnn) → t.stack = s.stack) ∧
  ((∀ x, i ≠ .ldDtVx x) → t.dt = s.dt) ∧
  ((∀ x, i ≠ .ldStVx x) → t.st = s.st) ∧
  (i ≠ .cls → (∀ x y n, i ≠ .drw x y n) → t.fb = s.fb) ∧
  (∀ a, (∀ k < storedBytes i, (s.index.toNat + k) % 4096 ≠ a % 4096) → Memory.read t.mem a = Memory.read s.mem a) ∧
  t.mem.font = s.mem.font ∧ t.straps = s.straps ∧ t.input = s.input ∧ t.schedule = s.schedule ∧ t.draws = s.draws

/-! ### The read column of R38 -/

/-- Two states agree on the register `r`. -/
def sameV (s s' : State) (r : Nibble) : Prop := s.readV r = s'.readV r

/-- Two states agree on all that R38's read column names for an instruction, the straps it consults and PC where it reads it. -/
def agreeOnReads (i : Instr) (s s' : State) : Prop :=
  match i with
  | .cls | .jp _ | .ldImm _ _ | .ldI _ => True
  | .ret => s.sp = s'.sp ∧ s.stack = s'.stack
  | .call _ => s.sp = s'.sp ∧ s.pc = s'.pc
  | .seImm x _ | .sneImm x _ => sameV s s' x ∧ s.pc = s'.pc
  | .seReg x y | .sneReg x y => sameV s s' x ∧ sameV s s' y ∧ s.pc = s'.pc
  | .addImm x _ | .ldDtVx x | .ldStVx x | .ldF x => sameV s s' x
  | .ldReg _ y => sameV s s' y
  | .orReg x y | .andReg x y | .xorReg x y | .addReg x y | .subReg x y | .subn x y => sameV s s' x ∧ sameV s s' y
  | .shr x y | .shl x y =>
    s.straps.qShift = s'.straps.qShift ∧ (if s.straps.qShift then sameV s s' y else sameV s s' x)
  | .jpV0 nnn =>
    s.straps.qJumpVx = s'.straps.qJumpVx ∧ (if s.straps.qJumpVx then sameV s s' (nnn.extractLsb' 8 4) else sameV s s' 0#4)
  | .rnd _ _ => s.input.rnd = s'.input.rnd
  | .drw x y n =>
    sameV s s' x ∧ sameV s s' y ∧ s.index = s'.index ∧ s.fb = s'.fb ∧
    ∀ k < n.toNat, Memory.read s.mem (s.index.toNat + k) = Memory.read s'.mem (s.index.toNat + k)
  | .skp x | .sknp x => sameV s s' x ∧ s.input.keys = s'.input.keys ∧ s.pc = s'.pc
  | .ldVxDt _ => s.dt = s'.dt
  | .ldVxKey _ => s.input.keys = s'.input.keys ∧ s.pc = s'.pc
  | .addI x => s.index = s'.index ∧ sameV s s' x ∧ s.straps.fx1eClearsVf = s'.straps.fx1eClearsVf
  | .ldB x => sameV s s' x ∧ s.index = s'.index
  | .storeRegs x =>
    (∀ r : Nibble, r.toNat ≤ x.toNat → sameV s s' r) ∧ s.index = s'.index ∧ s.straps.qStoreInc = s'.straps.qStoreInc
  | .loadRegs x =>
    s.index = s'.index ∧ s.straps.qLoadInc = s'.straps.qLoadInc ∧
    ∀ k ≤ x.toNat, Memory.read s.mem (s.index.toNat + k) = Memory.read s'.mem (s.index.toNat + k)

/-- One piece of state either takes the same value in both runs or is left as it was in both: the instruction's effect on it is the same. -/
def sameEffect {α : Type} (f : State → α) (s t s' t' : State) : Prop :=
  f t = f t' ∨ (f t = f s ∧ f t' = f s')

/-- An instruction has the same effect on every piece of state in two runs. -/
def sameEffects (s t s' t' : State) : Prop :=
  (∀ r, sameEffect (fun u => u.readV r) s t s' t') ∧
  sameEffect State.index s t s' t' ∧ sameEffect State.pc s t s' t' ∧
  (∀ k, sameEffect (fun u => u.readStack k) s t s' t') ∧ sameEffect State.sp s t s' t' ∧
  sameEffect State.dt s t s' t' ∧ sameEffect State.st s t s' t' ∧ sameEffect State.fb s t s' t' ∧
  (∀ a, sameEffect (fun u => Memory.read u.mem a) s t s' t') ∧
  sameEffect State.fault s t s' t' ∧ sameEffect State.faultWord s t s' t'

/-! ### The sprite of R192, pixel by pixel -/

/-- The sprite of Dxyn has a 1 bit on the pixel of column `c`, row `r`: the pixel is at most 7 columns right of the wrapped origin and fewer than `n` rows below it,
and bit 7 of a sprite byte is the leftmost (R192, R193). -/
def spriteCovers (s : State) (x y n : Nibble) (c r : Nat) : Prop :=
  let x0 := (s.readV x).toNat % 64
  let y0 := (s.readV y).toNat % 32
  x0 ≤ c ∧ c ≤ x0 + 7 ∧ y0 ≤ r ∧ r < y0 + n.toNat ∧
  (Memory.read s.mem (s.index.toNat + (r - y0))).getLsbD (7 - (c - x0)) = true

end Sys2Proof.Spec

open Sys2Proof Sys2Proof.Machine Sys2Proof.Spec

/-! ## Encoding and decoding -/

/-- R75, R82: the decoder reads back every instruction from its word, with every operand at every value. -/
def Obligations.DecodeOfEncode : Prop :=
  ∀ i : Instr, i.wellFormed = true → decode (encode i) = .ok i

/-- R71, R75, R82: a word that decodes is the word of the instruction it decodes to, so no bit of a legal word is dropped. -/
def Obligations.EncodeOfDecode : Prop :=
  ∀ (w : Word) (i : Instr), decode w = .ok i → encode i = w

/-- R74: the decoder answers an instruction exactly when the family's tests hold. The strictness of families 0, E and F is the spec's decision D25 (notes/assumptions/15.md). -/
def Obligations.LegalWordsAreTheTables : Prop :=
  ∀ w : Word, (∃ i, decode w = .ok i) ↔ legalWord w

/-- R75: the word of each instruction, written as the instruction rules write it. -/
def Obligations.EncodingsOfTheOpcodeMap : Prop :=
  encode .cls = 0x00E0#16 ∧ encode .ret = 0x00EE#16 ∧
  (∀ nnn, encode (.jp nnn) = wordNNN 0x1000#16 nnn ∧ encode (.call nnn) = wordNNN 0x2000#16 nnn ∧
    encode (.ldI nnn) = wordNNN 0xA000#16 nnn ∧ encode (.jpV0 nnn) = wordNNN 0xB000#16 nnn) ∧
  (∀ x nn, encode (.seImm x nn) = wordXNN 0x3000#16 x nn ∧ encode (.sneImm x nn) = wordXNN 0x4000#16 x nn ∧
    encode (.ldImm x nn) = wordXNN 0x6000#16 x nn ∧ encode (.addImm x nn) = wordXNN 0x7000#16 x nn ∧
    encode (.rnd x nn) = wordXNN 0xC000#16 x nn) ∧
  (∀ x y, encode (.seReg x y) = wordXY 0x5000#16 x y ∧ encode (.sneReg x y) = wordXY 0x9000#16 x y ∧
    encode (.ldReg x y) = wordXY 0x8000#16 x y ∧ encode (.orReg x y) = wordXY 0x8001#16 x y ∧
    encode (.andReg x y) = wordXY 0x8002#16 x y ∧ encode (.xorReg x y) = wordXY 0x8003#16 x y ∧
    encode (.addReg x y) = wordXY 0x8004#16 x y ∧ encode (.subReg x y) = wordXY 0x8005#16 x y ∧
    encode (.shr x y) = wordXY 0x8006#16 x y ∧ encode (.subn x y) = wordXY 0x8007#16 x y ∧
    encode (.shl x y) = wordXY 0x800E#16 x y) ∧
  (∀ x y n, encode (.drw x y n) = wordXYN 0xD000#16 x y n) ∧
  (∀ x, encode (.skp x) = wordX 0xE09E#16 x ∧ encode (.sknp x) = wordX 0xE0A1#16 x ∧
    encode (.ldVxDt x) = wordX 0xF007#16 x ∧ encode (.ldVxKey x) = wordX 0xF00A#16 x ∧
    encode (.ldDtVx x) = wordX 0xF015#16 x ∧ encode (.ldStVx x) = wordX 0xF018#16 x ∧
    encode (.addI x) = wordX 0xF01E#16 x ∧ encode (.ldF x) = wordX 0xF029#16 x ∧
    encode (.ldB x) = wordX 0xF033#16 x ∧ encode (.storeRegs x) = wordX 0xF055#16 x ∧
    encode (.loadRegs x) = wordX 0xF065#16 x)

/-- R75: words written out from the spec's encodings decode to the instructions they stand for, and illegal words of R76 to none. -/
def Obligations.WordsOfTheSpecDecode : Prop :=
  decodeTableWord 16 0x00E0 = some .cls ∧ decodeTableWord 16 0x1234 = some (.jp 0x234#12) ∧
  decodeTableWord 16 0x3A7F = some (.seImm 10#4 0x7F#8) ∧ decodeTableWord 16 0x8AB7 = some (.subn 10#4 11#4) ∧
  decodeTableWord 16 0x9F00 = some (.sneReg 15#4 0#4) ∧ decodeTableWord 16 0xB2FF = some (.jpV0 0x2FF#12) ∧
  decodeTableWord 16 0xDABF = some (.drw 10#4 11#4 15#4) ∧ decodeTableWord 16 0xEFA1 = some (.sknp 15#4) ∧
  decodeTableWord 16 0xF755 = some (.storeRegs 7#4) ∧ decodeTableWord 16 0x5001 = none ∧ decodeTableWord 16 0x0000 = none

/-! ## Memory and fetch -/

/-- R102: the word fetched has the byte at PC mod 4096 as its high byte and the byte at (PC + 1) mod 4096 as its low byte.
`fetch` is a function of the state to a word, so it can neither fault nor change anything. -/
def Obligations.FetchIsBigEndianAndWraps : Prop :=
  ∀ s : State,
    (fetch s).toNat / 256 = (Memory.cell s.mem (s.pc.toNat % 4096)).toNat ∧
    (fetch s).toNat % 256 = (Memory.cell s.mem ((s.pc.toNat + 1) % 4096)).toNat

/-- The canonical form does its work: two well-formed memories of one run (one FONT) that read alike everywhere are one memory.
This is the model's own representation of `MEM` (R29, R50). -/
def Obligations.CanonicalMemoriesThatReadAlikeAreEqual : Prop :=
  ∀ m m' : Memory, m.font = m'.font → Memory.wf m → Memory.wf m' → (∀ a, Memory.read m a = Memory.read m' a) → m = m'

/-- R62: the bytes Fx55 stores are the word the very next fetch of their address reads, so self-modifying code is exact.
Immediate visibility is the spec's decision D32 (notes/assumptions/22.md). -/
def Obligations.StoredBytesAreFetched : Prop :=
  ∀ (x : Nibble) (s t : State), exec (.storeRegs x) s = .next t →
    ∀ k < x.toNat, Memory.fetchWord t.mem (s.index.toNat + k) = wordOfBytes (s.readV (BitVec.ofNat 4 k)) (s.readV (BitVec.ofNat 4 (k + 1)))

/-! ## The step -/

/-- R101 to R108: a halted core is left as it is; otherwise the word at PC is fetched, PC is advanced, the timers are updated, and the word is executed if it decodes
and raises UnknownInstruction if it does not. That a halted core ignores the step is the spec's decision D11, and what the illegal word leaves is D9 and D10
(notes/assumptions/7.md); the wrap of PC at 2^16 is D3 (8.md). `presentNextInput`, which the model adds around it, lets the host choose the next step's inputs (1.md) and changes
nothing of the core. -/
def Obligations.StepRunsTheDecodedInstruction : Prop :=
  ∀ s : State,
    (s.fault ≠ .none → step s = .next s) ∧
    (s.fault = .none → ∀ u : State,
      u = { s with
            pc := s.pc + 2#16
            dt := BitVec.ofNat 8 (s.dt.toNat - s.input.elapsedTicks)
            st := BitVec.ofNat 8 (s.st.toNat - s.input.elapsedTicks) } →
      (∀ i, decode (Memory.fetchWord s.mem s.pc.toNat) = .ok i → step s = onNext presentNextInput (exec i u)) ∧
      (∀ e, decode (Memory.fetchWord s.mem s.pc.toNat) = .error e →
        step s = .next (presentNextInput { u with
          fault := .unknownInstruction
          faultWord := Memory.fetchWord s.mem s.pc.toNat }))) ∧
    presentNextInput s = { s with
      input := (presentNextInput s).input
      schedule := (presentNextInput s).schedule
      draws := (presentNextInput s).draws }

/-- R100: the step is total: from every state whose SP is one R36 calls legal, a step answers a next state. -/
def Obligations.StepAlwaysAnswers : Prop :=
  ∀ s : State, s.sp.toNat ≤ 16 → ∃ t, step s = .next t

/-- R234: a halted core ignores any number of steps. Ignoring them is the spec's decision D11 (notes/assumptions/7.md). -/
def Obligations.HaltedCoreStaysAsItIs : Prop :=
  ∀ (s : State) (k : Nat), ¬ running s → core.run k s = .next s

/-- R104: in every step that is not halted each timer falls by `elapsedTicks`, clamped at zero, and an instruction other than the timer's own write leaves it there;
Fx07 reads the value already decremented, and a value written by Fx15 or Fx18 is not decremented in its own step. -/
def Obligations.TimersFallByElapsedTicks : Prop :=
  ∀ s t : State, s.fault = .none → step s = .next t →
    ((∀ x, decode (fetch s) ≠ .ok (.ldDtVx x)) → t.dt.toNat = s.dt.toNat - s.input.elapsedTicks) ∧
    ((∀ x, decode (fetch s) ≠ .ok (.ldStVx x)) → t.st.toNat = s.st.toNat - s.input.elapsedTicks) ∧
    (∀ x, decode (fetch s) = .ok (.ldDtVx x) → t.dt = s.readV x) ∧
    (∀ x, decode (fetch s) = .ok (.ldStVx x) → t.st = s.readV x) ∧
    (∀ x, decode (fetch s) = .ok (.ldVxDt x) → (t.readV x).toNat = s.dt.toNat - s.input.elapsedTicks)

/-- R103: in every step that is not halted PC goes to the address of the instruction plus 2, a faulting step included, unless the word is one of the eleven that write PC.
The wrap at 2^16 is the spec's decision D3 (notes/assumptions/8.md). -/
def Obligations.PcAdvancesByTwo : Prop :=
  ∀ s t : State, s.fault = .none → step s = .next t →
    ((∀ i, decode (fetch s) = .ok i → ¬ writesPc i) ∨ t.fault ≠ .none) →
    t.pc.toNat = (s.pc.toNat + 2) % 65536

/-! ## Faults -/

/-- R106: an instruction completes or raises and makes none of its other writes; only 2nnn and 00EE can raise, each on the SP it had before any write;
and a word that is illegal raises UnknownInstruction with that word.
That the two call stack faults record the word is the spec's decision D9 (notes/assumptions/7.md). -/
def Obligations.OnlyCallAndReturnRaise : Prop :=
  (∀ (i : Instr) (s t : State), exec i s = .next t → (t.fault ≠ s.fault ∨ t.faultWord ≠ s.faultWord) →
    ((∃ nnn, i = .call nnn) ∧ s.sp.toNat = 16 ∧ t = { s with fault := .stackOverflow, faultWord := encode i }) ∨
    (i = .ret ∧ s.sp.toNat = 0 ∧ t = { s with fault := .stackUnderflow, faultWord := encode i })) ∧
  (∀ (w : Word) (s : State), (∀ i, decode w ≠ .ok i) →
    decodeAndExecute w s = .next { s with fault := .unknownInstruction, faultWord := w })

/-- R230 to R232: when each fault is raised, and that nothing else is. The codes are the spec's decision D9 (notes/assumptions/7.md). -/
def Obligations.WhenEachFaultIsRaised : Prop :=
  ∀ s : State, s.fault = .none → s.sp.toNat ≤ 16 →
    ∃ t, step s = .next t ∧
      (faultOutput t = 1#2 ↔ ¬ legalWord (fetch s)) ∧
      (faultOutput t = 2#2 ↔ (∃ nnn, decode (fetch s) = .ok (.call nnn)) ∧ s.sp.toNat = 16) ∧
      (faultOutput t = 3#2 ↔ fetch s = 0x00EE#16 ∧ s.sp.toNat = 0)

/-- R233: what a faulting step leaves: the cause and the word in the latch, PC advanced, the timers decremented, everything else of the core as before the step.
The post-fault state is the spec's decision D10 (notes/assumptions/7.md). -/
def Obligations.FaultingStepKeepsTheRest : Prop :=
  ∀ s t : State, s.fault = .none → step s = .next t → t.fault ≠ .none →
    t.faultWord = fetch s ∧ t.pc = s.pc + 2#16 ∧
    t.dt.toNat = s.dt.toNat - s.input.elapsedTicks ∧ t.st.toNat = s.st.toNat - s.input.elapsedTicks ∧
    t.v = s.v ∧ t.index = s.index ∧ t.sp = s.sp ∧ t.stack = s.stack ∧ t.fb = s.fb ∧ t.mem = s.mem

/-- CALL and RET stop by name when SP is 17 .. 31, values R36 says are never reached: the model's choice, notes/assumptions/6.md. -/
def Obligations.StackPointerBeyondCapacityStops : Prop :=
  ∀ (s : State) (nnn : Addr12), 16 < s.sp.toNat →
    exec (.call nnn) s = .fault .stackPointerBeyondCapacity ∧ exec .ret s = .fault .stackPointerBeyondCapacity

/-! ## Whole-machine rules -/

/-- The invariant of Sys2Proof/Safety.lean is kept by every step from every state that has it: memory stays canonical, which is the model's own form of MEM
(notes/assumptions/4.md), `0 <= SP <= 16` (R25; the count is the spec's decision D7, 6.md), and a set latch names a word that stands at PC - 2 and raises that fault (R231 to R233).
The latch clause rests on the spec's decisions D9 (the word is recorded for all three faults) and D10 (PC has advanced), 7.md; PC - 2 modulo 2^16 is D3, 8.md. -/
def Obligations.InvariantKeptByEveryStep : Prop :=
  ∀ s t : State, Inv s → step s = .next t → Inv t

/-- R37, R270: the invariant holds after reset. The values it rests on are the spec's decisions: SP D24, FAULT and FAULT_WORD D9 (notes/assumptions/5.md), and memory D35,
in the model's canonical form (4.md). -/
def Obligations.InvariantHoldsAtReset : Prop := Inv State.reset

/-- R38, write column: an instruction changes only the state its row lists, and every byte of memory but those it stores. -/
def Obligations.InstructionsWriteOnlyTheirColumn : Prop :=
  ∀ (i : Instr) (s t : State), exec i s = .next t → changesOnlyItsColumn i s t

/-- R38, read column: an instruction's effect depends only on the state its row lists. From two states that agree on it, each piece of state either ends the same
or is left as it was in both. -/
def Obligations.InstructionsReadOnlyTheirColumn : Prop :=
  ∀ (i : Instr) (s s' t t' : State), agreeOnReads i s s' → exec i s = .next t → exec i s' = .next t' → sameEffects s t s' t'

/-- R33, R64: no step changes the straps. -/
def Obligations.StrapsHoldForTheRun : Prop :=
  ∀ s t : State, step s = .next t → t.straps = s.straps

/-- R142, R241: the keypad reaches a program only through Ex9E, ExA1 and Fx0A, the random byte only through Cxnn, and `elapsedTicks` through no instruction's execute phase. -/
def Obligations.InputsReachOnlyTheirInstructions : Prop :=
  ∀ (i : Instr) (s : State) (j : StepInput),
    ((∃ x, i = .skp x ∨ i = .sknp x ∨ i = .ldVxKey x) → j.keys = s.input.keys) →
    ((∃ x nn, i = .rnd x nn) → j.rnd = s.input.rnd) →
    exec i { s with input := j } = onNext (fun t => { t with input := j }) (exec i s)

/-- R21: the seven instructions that write VF as a flag leave it as the table says, whatever their `x` and `y`, and no other writes VF unless its destination names register 15.
For `x = 15` the flag as the last write is the spec's decision D18 (notes/assumptions/9.md). -/
def Obligations.VfIsTheOnlyFlag : Prop :=
  (∀ (x y n : Nibble) (s : State), ∃ a b c d e f g,
    exec (.addReg x y) s = .next a ∧ exec (.subReg x y) s = .next b ∧ exec (.shr x y) s = .next c ∧ exec (.subn x y) s = .next d ∧
    exec (.shl x y) s = .next e ∧ exec (.drw x y n) s = .next f ∧ exec (.addI x) s = .next g ∧
    (a.readV 15#4).toNat = (if (s.readV x).toNat + (s.readV y).toNat > 255 then 1 else 0) ∧
    (b.readV 15#4).toNat = (if (s.readV x).toNat ≥ (s.readV y).toNat then 1 else 0) ∧
    (c.readV 15#4).toNat = (s.readV (if s.straps.qShift then y else x)).toNat % 2 ∧
    (d.readV 15#4).toNat = (if (s.readV y).toNat ≥ (s.readV x).toNat then 1 else 0) ∧
    (e.readV 15#4).toNat = (s.readV (if s.straps.qShift then y else x)).toNat / 128 ∧
    ((f.readV 15#4).toNat ≤ 1 ∧ ((f.readV 15#4).toNat = 1 ↔
      ∃ k < 2048, Framebuffer.cell s.fb k = true ∧ Framebuffer.cell f.fb k = false)) ∧
    (g.readV 15#4).toNat = (if s.index.toNat + (s.readV x).toNat > 0xFFFF then 1
      else if s.straps.fx1eClearsVf then 0 else (s.readV 15#4).toNat)) ∧
  (∀ (i : Instr) (s t : State), exec i s = .next t → ¬ writesRegister i 15#4 → t.readV 15#4 = s.readV 15#4)

/-! ## Reset and boot -/

/-- R37, R270, R271: the state after reset. PC is the source's; the zeros are the spec's decisions D9, D24 and D35 (notes/assumptions/4.md, 5.md),
and the font is the parameter FONT, of which nothing is known (3.md). -/
def Obligations.ResetState : Prop :=
  State.reset.pc = 0x0200#16 ∧ State.reset.index = 0#16 ∧ State.reset.sp = 0#5 ∧
  (∀ r, State.reset.readV r = 0#8) ∧ (∀ k, State.reset.readStack k = 0#16) ∧
  State.reset.dt = 0#8 ∧ State.reset.st = 0#8 ∧ (∀ k, Framebuffer.cell State.reset.fb k = false) ∧
  faultOutput State.reset = 0#2 ∧ faultWordOutput State.reset = 0#16 ∧ soundActive State.reset = false ∧
  (∀ a, a < 0x050 ∨ (0x0A0 ≤ a ∧ a < 4096) → Memory.read State.reset.mem a = 0x00#8) ∧
  (∀ (k : Nat) (hk : k < 80), Memory.read State.reset.mem (0x050 + k) = Config.font[k])

/-- R270, R272: after reset with a font and a program image of at most 3584 bytes the font is in memory from 0x050 and the image verbatim from 0x200, the rest of memory is
0x00 and the rest of the state is that of `State.reset`, which is itself such a reset, with no image; a longer image is refused. Loading as part of reset is the spec's
decision D31 (notes/assumptions/17.md), the zeros are D35 (4.md), and FONT is a parameter (3.md). -/
def Obligations.ResetLoadsTheImage : Prop :=
  ∀ (font : Vector Byte 80) (image : List Byte),
    (3584 < image.length → resetWithImage font image = none) ∧
    (image.length ≤ 3584 → ∃ s, resetWithImage font image = some s ∧ s = { State.reset with mem := s.mem } ∧ s.mem.font = font ∧ Memory.wf s.mem ∧
      (∀ (k : Nat) (hk : k < image.length), Memory.read s.mem (0x200 + k) = image[k]) ∧
      (∀ (k : Nat) (hk : k < 80), Memory.read s.mem (0x050 + k) = font[k]) ∧
      (∀ a < 4096, a < 0x050 ∨ (0x0A0 ≤ a ∧ a < 0x200) ∨ 0x200 + image.length ≤ a → Memory.read s.mem a = 0x00#8)) ∧
    resetWithImage Config.font [] = some State.reset

/-- A word placed by `withFetchWord` is the word the next step fetches, from a core that runs, and the rest of the state is as it was (notes/assumptions/17.md). -/
def Obligations.PlacedWordIsFetched : Prop :=
  ∀ (s : State) (w : Word), fetch (s.withFetchWord 16 w.toNat) = w ∧ (s.withFetchWord 16 w.toNat).fault = .none ∧
    s.withFetchWord 16 w.toNat = { s with mem.cells := (s.withFetchWord 16 w.toNat).mem.cells, fault := .none } ∧
    (∀ a, a % 4096 ≠ s.pc.toNat % 4096 → a % 4096 ≠ (s.pc.toNat + 1) % 4096 →
      Memory.read (s.withFetchWord 16 w.toNat).mem a = Memory.read s.mem a)

/-! ## Control transfer -/

/-- R122: 1nnn. -/
def Obligations.JumpWritesPc : Prop :=
  ∀ (nnn : Addr12) (s : State), encode (.jp nnn) = wordNNN 0x1000#16 nnn ∧
    ∃ t, exec (.jp nnn) s = .next t ∧ t.pc.toNat = nnn.toNat ∧ t = { s with pc := t.pc }

/-- R123: 2nnn, with the call stack not full and full. SP as a count and the word recorded by StackOverflow are the spec's decisions D7 and D9
(notes/assumptions/6.md, 7.md). -/
def Obligations.CallPushesAndJumps : Prop :=
  ∀ (nnn : Addr12) (s : State), encode (.call nnn) = wordNNN 0x2000#16 nnn ∧
    (s.sp.toNat = 16 → exec (.call nnn) s = .next { s with fault := .stackOverflow, faultWord := wordNNN 0x2000#16 nnn }) ∧
    (s.sp.toNat < 16 → ∃ t, exec (.call nnn) s = .next t ∧ t.pc.toNat = nnn.toNat ∧ t.sp.toNat = s.sp.toNat + 1 ∧
      (∀ k, t.readStack k = if k.toNat = s.sp.toNat then s.pc else s.readStack k) ∧
      t = { s with pc := t.pc, sp := t.sp, stack := t.stack })

/-- R121: 00EE, with the call stack not empty and empty. The popped entry keeps its bits. SP as a count and the word recorded by StackUnderflow are the spec's
decisions D7 and D9 (notes/assumptions/6.md, 7.md). -/
def Obligations.ReturnPopsIntoPc : Prop :=
  ∀ s : State, encode .ret = 0x00EE#16 ∧
    (s.sp.toNat = 0 → exec .ret s = .next { s with fault := .stackUnderflow, faultWord := 0x00EE#16 }) ∧
    (0 < s.sp.toNat → s.sp.toNat ≤ 16 → ∃ t, exec .ret s = .next t ∧ t.sp.toNat + 1 = s.sp.toNat ∧
      (∀ k, k.toNat + 1 = s.sp.toNat → t.pc = s.readStack k) ∧ t = { s with pc := t.pc, sp := t.sp })

/-- R121, R123: a return right after a call comes back to the instruction after the call with the stack pointer as it was; only the pushed entry differs. -/
def Obligations.ReturnUndoesCall : Prop :=
  ∀ (nnn : Addr12) (s t : State), s.sp.toNat < 16 → exec (.call nnn) s = .next t →
    ∃ u, exec .ret t = .next u ∧ u.pc = s.pc ∧ u.sp = s.sp ∧ u = { s with stack := u.stack }

/-- R120, R124, R125, R126, R127: the four register skips pass exactly one instruction when their condition holds and write nothing when it does not.
The wrap of PC at 2^16 is the spec's decision D3 (notes/assumptions/8.md). -/
def Obligations.RegisterSkips : Prop :=
  ∀ (x y : Nibble) (nn : Byte) (s : State),
    encode (.seImm x nn) = wordXNN 0x3000#16 x nn ∧ encode (.sneImm x nn) = wordXNN 0x4000#16 x nn ∧
    encode (.seReg x y) = wordXY 0x5000#16 x y ∧ encode (.sneReg x y) = wordXY 0x9000#16 x y ∧
    ∃ t, t = { s with pc := t.pc } ∧ t.pc.toNat = (s.pc.toNat + 2) % 65536 ∧
      exec (.seImm x nn) s = .next (if (s.readV x).toNat = nn.toNat then t else s) ∧
      exec (.sneImm x nn) s = .next (if (s.readV x).toNat = nn.toNat then s else t) ∧
      exec (.seReg x y) s = .next (if (s.readV x).toNat = (s.readV y).toNat then t else s) ∧
      exec (.sneReg x y) s = .next (if (s.readV x).toNat = (s.readV y).toNat then s else t)

/-- R128, R81: Bnnn adds V[x], `x` the top nibble of `nnn`, or V[0], as the strap says. The sum as a whole PC is the spec's decision D33 (notes/assumptions/8.md). -/
def Obligations.JumpWithOffset : Prop :=
  ∀ (nnn : Addr12) (s : State), ∃ t, exec (.jpV0 nnn) s = .next t ∧ t = { s with pc := t.pc } ∧
    t.pc.toNat = nnn.toNat + (if s.straps.qJumpVx then s.readV (BitVec.ofNat 4 (nnn.toNat / 256)) else s.readV 0#4).toNat

/-- R109: the program is done (`doneAt`) when a running core stands at a jump to its own address, and then it stays done: a step, and a run of any length, answers a next
state that differs only in the timers and the host's inputs. That `doneAt` is what a finished program means is the model's choice (notes/assumptions/25.md). -/
def Obligations.JumpToSelfStands : Prop :=
  ∀ (s : State) (nnn : Addr12),
    (doneAt nnn s ↔ s.fault = .none ∧ s.pc.toNat = nnn.toNat ∧ fetch s = wordNNN 0x1000#16 nnn) ∧
    (doneAt nnn s →
      (∃ t, step s = .next t ∧ doneAt nnn t ∧
        t = { s with dt := t.dt, st := t.st, input := t.input, schedule := t.schedule, draws := t.draws }) ∧
      ∀ k, ∃ t, core.run k s = .next t ∧ doneAt nnn t ∧
        t = { s with dt := t.dt, st := t.st, input := t.input, schedule := t.schedule, draws := t.draws })

/-! ## Register immediates and random -/

/-- R140: 6xnn. -/
def Obligations.LoadImmediate : Prop :=
  ∀ (x : Nibble) (nn : Byte) (s : State), encode (.ldImm x nn) = wordXNN 0x6000#16 x nn ∧
    ∃ t, exec (.ldImm x nn) s = .next t ∧ t.readV x = nn ∧ (∀ r, r ≠ x → t.readV r = s.readV r) ∧ t = { s with v := t.v }

/-- R141: 7xnn, modulo 256, VF untouched unless it is the destination. -/
def Obligations.AddImmediate : Prop :=
  ∀ (x : Nibble) (nn : Byte) (s : State), encode (.addImm x nn) = wordXNN 0x7000#16 x nn ∧
    ∃ t, exec (.addImm x nn) s = .next t ∧ (t.readV x).toNat = ((s.readV x).toNat + nn.toNat) % 256 ∧
      (∀ r, r ≠ x → t.readV r = s.readV r) ∧ t = { s with v := t.v }

/-- R142: Cxnn: each bit of V[x] is that bit of the step's random byte where the mask has 1, else 0. The random byte as a step input is the spec's decision D17
(notes/assumptions/1.md). -/
def Obligations.RandomIsMasked : Prop :=
  ∀ (x : Nibble) (nn : Byte) (s : State), encode (.rnd x nn) = wordXNN 0xC000#16 x nn ∧
    ∃ t, exec (.rnd x nn) s = .next t ∧ (∀ b, (t.readV x).getLsbD b = (s.input.rnd.getLsbD b && nn.getLsbD b)) ∧
      (∀ r, r ≠ x → t.readV r = s.readV r) ∧ t = { s with v := t.v }

/-! ## The ALU -/

/-- R152 to R155: copy and the logic operations, bit by bit; no register but V[x] changes. That VF is not written is the spec's decision D36 (notes/assumptions/16.md). -/
def Obligations.CopyAndLogic : Prop :=
  ∀ (x y : Nibble) (s : State), ∃ c o a e,
    exec (.ldReg x y) s = .next c ∧ exec (.orReg x y) s = .next o ∧ exec (.andReg x y) s = .next a ∧ exec (.xorReg x y) s = .next e ∧
    c.readV x = s.readV y ∧
    (∀ b, (o.readV x).getLsbD b = ((s.readV x).getLsbD b || (s.readV y).getLsbD b)) ∧
    (∀ b, (a.readV x).getLsbD b = ((s.readV x).getLsbD b && (s.readV y).getLsbD b)) ∧
    (∀ b, (e.readV x).getLsbD b = ((s.readV x).getLsbD b != (s.readV y).getLsbD b)) ∧
    (∀ t ∈ [c, o, a, e], (∀ r, r ≠ x → t.readV r = s.readV r) ∧ t = { s with v := t.v })

/-- R156: 8xy4, the sum modulo 256 and the carry; with `x = 15` VF ends as the flag and the result is lost (the spec's decision D18, notes/assumptions/9.md). -/
def Obligations.AddWithCarry : Prop :=
  ∀ (x y : Nibble) (s : State), encode (.addReg x y) = wordXY 0x8004#16 x y ∧
    ∃ t, exec (.addReg x y) s = .next t ∧
      (x ≠ 15#4 → (t.readV x).toNat = ((s.readV x).toNat + (s.readV y).toNat) % 256) ∧
      (t.readV 15#4).toNat = (if (s.readV x).toNat + (s.readV y).toNat > 255 then 1 else 0) ∧
      (∀ r, r ≠ x → r ≠ 15#4 → t.readV r = s.readV r) ∧ t = { s with v := t.v }

/-- R157: 8xy5, the difference modulo 256 and "no borrow" from the operands as read; with `x = 15` VF ends as the flag and the result is lost (the spec's decision D18, notes/assumptions/9.md). -/
def Obligations.SubtractWithNoBorrow : Prop :=
  ∀ (x y : Nibble) (s : State), encode (.subReg x y) = wordXY 0x8005#16 x y ∧
    ∃ t, exec (.subReg x y) s = .next t ∧
      (x ≠ 15#4 → ((t.readV x).toNat : Int) = ((s.readV x).toNat - (s.readV y).toNat : Int) % 256) ∧
      (t.readV 15#4).toNat = (if (s.readV x).toNat ≥ (s.readV y).toNat then 1 else 0) ∧
      (∀ r, r ≠ x → r ≠ 15#4 → t.readV r = s.readV r) ∧ t = { s with v := t.v }

/-- R159: 8xy7, the reverse difference; with `x = 15` VF ends as the flag and the result is lost (the spec's decision D18, notes/assumptions/9.md). -/
def Obligations.SubtractReversed : Prop :=
  ∀ (x y : Nibble) (s : State), encode (.subn x y) = wordXY 0x8007#16 x y ∧
    ∃ t, exec (.subn x y) s = .next t ∧
      (x ≠ 15#4 → ((t.readV x).toNat : Int) = ((s.readV y).toNat - (s.readV x).toNat : Int) % 256) ∧
      (t.readV 15#4).toNat = (if (s.readV y).toNat ≥ (s.readV x).toNat then 1 else 0) ∧
      (∀ r, r ≠ x → r ≠ 15#4 → t.readV r = s.readV r) ∧ t = { s with v := t.v }

/-- R158: 8xy6, the operand the strap chooses halved, VF its bit 0;
with `x = 15` VF ends as the flag and the result is lost (the spec's decision D18, notes/assumptions/9.md). -/
def Obligations.ShiftRight : Prop :=
  ∀ (x y : Nibble) (s : State), encode (.shr x y) = wordXY 0x8006#16 x y ∧
    ∃ t, exec (.shr x y) s = .next t ∧
      (x ≠ 15#4 → (t.readV x).toNat = (s.readV (if s.straps.qShift then y else x)).toNat / 2) ∧
      (t.readV 15#4).toNat = (s.readV (if s.straps.qShift then y else x)).toNat % 2 ∧
      (∀ r, r ≠ x → r ≠ 15#4 → t.readV r = s.readV r) ∧ t = { s with v := t.v }

/-- R160: 8xyE, the operand the strap chooses doubled modulo 256, VF its bit 7;
with `x = 15` VF ends as the flag and the result is lost (the spec's decision D18, notes/assumptions/9.md). -/
def Obligations.ShiftLeft : Prop :=
  ∀ (x y : Nibble) (s : State), encode (.shl x y) = wordXY 0x800E#16 x y ∧
    ∃ t, exec (.shl x y) s = .next t ∧
      (x ≠ 15#4 → (t.readV x).toNat = (s.readV (if s.straps.qShift then y else x)).toNat * 2 % 256) ∧
      (t.readV 15#4).toNat = (s.readV (if s.straps.qShift then y else x)).toNat / 128 ∧
      (∀ r, r ≠ x → r ≠ 15#4 → t.readV r = s.readV r) ∧ t = { s with v := t.v }

/-! ## The index register and memory -/

/-- R170: Annn. -/
def Obligations.LoadIndex : Prop :=
  ∀ (nnn : Addr12) (s : State), encode (.ldI nnn) = wordNNN 0xA000#16 nnn ∧
    ∃ t, exec (.ldI nnn) s = .next t ∧ t.index.toNat = nnn.toNat ∧ t = { s with index := t.index }

/-- R172: Fx1E: the sum modulo 2^16; VF is 1 on 16-bit overflow, else 0 or as it was, as the strap says; VF is written after I and V[x] is read before,
so `x = 15` adds the old VF (D5, D18, D20: notes/assumptions/8.md, 9.md, 2.md). -/
def Obligations.AddToIndex : Prop :=
  ∀ (x : Nibble) (s : State), ∃ t, exec (.addI x) s = .next t ∧
    t.index.toNat = (s.index.toNat + (s.readV x).toNat) % 65536 ∧
    (t.readV 15#4).toNat = (if s.index.toNat + (s.readV x).toNat > 65535 then 1
      else if s.straps.fx1eClearsVf then 0 else (s.readV 15#4).toNat) ∧
    (∀ r, r ≠ 15#4 → t.readV r = s.readV r) ∧ t = { s with v := t.v, index := t.index }

/-- R173: Fx29 on all eight bits of V[x], which is the spec's decision D23 for values above 15 (notes/assumptions/13.md). -/
def Obligations.FontAddressOfByte : Prop :=
  ∀ (x : Nibble) (s : State), ∃ t, exec (.ldF x) s = .next t ∧
    t.index.toNat = 0x50 + 5 * (s.readV x).toNat ∧ t = { s with index := t.index }

/-- R174: Fx33: hundreds, tens and ones at I, I+1 and I+2 modulo 4096, and no other byte or register changes. -/
def Obligations.DecimalStore : Prop :=
  ∀ (x : Nibble) (s : State), encode (.ldB x) = wordX 0xF033#16 x ∧
    ∃ t, exec (.ldB x) s = .next t ∧ t = { s with mem.cells := t.mem.cells } ∧
      (Memory.read t.mem (indexAddress s 0)).toNat = (s.readV x).toNat / 100 ∧
      (Memory.read t.mem (indexAddress s 1)).toNat = (s.readV x).toNat / 10 % 10 ∧
      (Memory.read t.mem (indexAddress s 2)).toNat = (s.readV x).toNat % 10 ∧
      (∀ a, (∀ k < 3, indexAddress s k % 4096 ≠ a % 4096) → Memory.read t.mem a = Memory.read s.mem a)

/-- R175: Fx55: V[0] .. V[x] at I .. I+x modulo 4096, no other byte changes, and I moves past the block exactly when its strap is set.
The wrap of I at 2^16 is the spec's decision D5 (notes/assumptions/8.md). -/
def Obligations.BlockStore : Prop :=
  ∀ (x : Nibble) (s : State), encode (.storeRegs x) = wordX 0xF055#16 x ∧
    ∃ t, exec (.storeRegs x) s = .next t ∧ t = { s with mem.cells := t.mem.cells, index := t.index } ∧
      (∀ k : Nibble, k.toNat ≤ x.toNat → Memory.read t.mem (indexAddress s k.toNat) = s.readV k) ∧
      (∀ a, (∀ k ≤ x.toNat, indexAddress s k % 4096 ≠ a % 4096) → Memory.read t.mem a = Memory.read s.mem a) ∧
      t.index.toNat = (if s.straps.qStoreInc then (s.index.toNat + x.toNat + 1) % 65536 else s.index.toNat)

/-- R176: Fx65: V[0] .. V[x] from I .. I+x modulo 4096, no other register changes, and I moves past the block exactly when its strap is set.
The wrap of I at 2^16 is the spec's decision D5 (notes/assumptions/8.md). -/
def Obligations.BlockLoad : Prop :=
  ∀ (x : Nibble) (s : State), encode (.loadRegs x) = wordX 0xF065#16 x ∧
    ∃ t, exec (.loadRegs x) s = .next t ∧ t = { s with v := t.v, index := t.index } ∧
      (∀ k : Nibble, k.toNat ≤ x.toNat → t.readV k = Memory.read s.mem (indexAddress s k.toNat)) ∧
      (∀ k : Nibble, x.toNat < k.toNat → t.readV k = s.readV k) ∧
      t.index.toNat = (if s.straps.qLoadInc then (s.index.toNat + x.toNat + 1) % 65536 else s.index.toNat)

/-- R175, R176: registers stored and loaded back from the same address are what they were, whatever the registers held in between. -/
def Obligations.StoreThenLoadBack : Prop :=
  ∀ (x : Nibble) (s t u w : State), exec (.storeRegs x) s = .next t →
    u.mem = t.mem → u.index = s.index → exec (.loadRegs x) u = .next w →
    ∀ k : Nibble, k.toNat ≤ x.toNat → w.readV k = s.readV k

/-! ## The framebuffer -/

/-- R191: 00E0 clears every cell and touches nothing else. -/
def Obligations.ClearScreen : Prop :=
  ∀ s : State, encode .cls = 0x00E0#16 ∧
    ∃ t, exec .cls s = .next t ∧ (∀ k < 2048, Framebuffer.cell t.fb k = false) ∧ t = { s with fb := t.fb }

/-- R192 to R194: every pixel of the screen after Dxyn, and VF. The origin wraps, the sprite clips, and VF is 1 exactly when a pixel the sprite covers was set.
Coordinates read before VF is written and bit 7 leftmost are the spec's decisions D19 and D21 (notes/assumptions/10.md). -/
def Obligations.DrawSprite : Prop :=
  ∀ (x y n : Nibble) (s : State), ∃ t, exec (.drw x y n) s = .next t ∧
    (∀ c r, c < 64 → r < 32 → (Framebuffer.cell t.fb (r * 64 + c) = true ↔
      (Framebuffer.cell s.fb (r * 64 + c) = true ∧ ¬ spriteCovers s x y n c r) ∨
      (Framebuffer.cell s.fb (r * 64 + c) = false ∧ spriteCovers s x y n c r))) ∧
    (t.readV 15#4 = 0x01#8 ↔ ∃ c r, c < 64 ∧ r < 32 ∧ spriteCovers s x y n c r ∧ Framebuffer.cell s.fb (r * 64 + c) = true) ∧
    (t.readV 15#4 = 0x01#8 ∨ t.readV 15#4 = 0x00#8) ∧
    (∀ r, r ≠ 15#4 → t.readV r = s.readV r) ∧ t = { s with v := t.v, fb := t.fb }

/-- R192, R194: a sprite drawn twice at the same coordinates leaves the framebuffer as it was, so the second drawing clears every pixel the first one set; VF after it is 1
exactly when the sprite covers a pixel that was clear before the first. The coordinates are in registers other than VF, which the first drawing writes (`DrawSprite` covers VF
as a coordinate). Where the sprite's pixels lie, bit 7 leftmost, is the spec's decision D21, from general knowledge (PRESUMED, notes/assumptions/10.md). -/
def Obligations.DrawTwiceRestores : Prop :=
  ∀ (x y n : Nibble) (s t : State), x ≠ 15#4 → y ≠ 15#4 → exec (.drw x y n) s = .next t →
    ∃ u, exec (.drw x y n) t = .next u ∧ u.fb = s.fb ∧
      (u.readV 15#4 = 0x01#8 ↔ ∃ c r, c < 64 ∧ r < 32 ∧ spriteCovers s x y n c r ∧ Framebuffer.cell s.fb (r * 64 + c) = false)

/-! ## The keypad and the timers -/

/-- R210, R211, R216: exactly one of the two key skips passes an instruction. The low four bits of V[x] as the key number are the spec's decision D15 (notes/assumptions/11.md). -/
def Obligations.KeySkips : Prop :=
  ∀ (x : Nibble) (s : State), ∃ t, t = { s with pc := t.pc } ∧ t.pc.toNat = (s.pc.toNat + 2) % 65536 ∧
    exec (.skp x) s = .next (if s.input.keys.getLsbD ((s.readV x).toNat % 16) then t else s) ∧
    exec (.sknp x) s = .next (if s.input.keys.getLsbD ((s.readV x).toNat % 16) then s else t)

/-- R212: Fx0A: with no key down PC goes back by 2; otherwise V[x] takes the lowest key that is down, which is the spec's decision D16 (notes/assumptions/12.md). -/
def Obligations.KeyWait : Prop :=
  ∀ (x : Nibble) (s : State),
    (s.input.keys = 0#16 → ∃ t, exec (.ldVxKey x) s = .next t ∧ (t.pc.toNat + 2) % 65536 = s.pc.toNat ∧ t = { s with pc := t.pc }) ∧
    (s.input.keys ≠ 0#16 → ∃ t, exec (.ldVxKey x) s = .next t ∧ (t.readV x).toNat < 16 ∧
      s.input.keys.getLsbD (t.readV x).toNat = true ∧ (∀ k < (t.readV x).toNat, s.input.keys.getLsbD k = false) ∧
      (∀ r, r ≠ x → t.readV r = s.readV r) ∧ t = { s with v := t.v })

/-- R212, R246: a step that waits in Fx0A leaves everything but the timers and the host's inputs, so the next step fetches the same word. -/
def Obligations.WaitingStepStaysInPlace : Prop :=
  ∀ (s : State) (x : Nibble), s.fault = .none → fetch s = wordX 0xF00A#16 x → s.input.keys = 0#16 →
    ∃ t, step s = .next t ∧ fetch t = fetch s ∧ t.dt.toNat = s.dt.toNat - s.input.elapsedTicks ∧
      t.st.toNat = s.st.toNat - s.input.elapsedTicks ∧
      t = { s with dt := t.dt, st := t.st, input := t.input, schedule := t.schedule, draws := t.draws }

/-- R213, R214, R215: the timer moves, and the sound output after Fx18. -/
def Obligations.TimerMoves : Prop :=
  ∀ (x : Nibble) (s : State),
    encode (.ldVxDt x) = wordX 0xF007#16 x ∧ encode (.ldDtVx x) = wordX 0xF015#16 x ∧ encode (.ldStVx x) = wordX 0xF018#16 x ∧
    (∃ t, exec (.ldVxDt x) s = .next t ∧ t.readV x = s.dt ∧ (∀ r, r ≠ x → t.readV r = s.readV r) ∧ t = { s with v := t.v }) ∧
    (∃ t, exec (.ldDtVx x) s = .next t ∧ t = { s with dt := s.readV x }) ∧
    (∃ t, exec (.ldStVx x) s = .next t ∧ t = { s with st := s.readV x } ∧ (soundActive t = true ↔ s.readV x ≠ 0x00#8))

/-! ## The configuration and the inputs along a run -/

/-- R6, R33: no step changes the parameter FONT, whatever is stored over the font's bytes. It is a parameter the model carries with memory (notes/assumptions/3.md). -/
def Obligations.FontParameterHoldsForTheRun : Prop :=
  ∀ s t : State, step s = .next t → t.mem.font = s.mem.font

/-- R32, R107, R273: after a step of a core that runs, the next step's inputs are the next listed ones, or a fresh free draw when none are listed, whatever instruction ran.
How the inputs stand in the state is the model's own (notes/assumptions/1.md). -/
def Obligations.InputsArePresentedInOrder : Prop :=
  ∀ s t : State, s.fault = .none → step s = .next t →
    (∀ j rest, s.schedule = j :: rest → t.input = j ∧ t.schedule = rest ∧ t.draws = s.draws) ∧
    (s.schedule = [] → t.input = Config.hostInput s.draws ∧ t.schedule = [] ∧ t.draws = s.draws + 1)
end

