-- ==== Sys2Proof/Laws/Decode.lean ====
section
/-! SUPPORT. The fields of a packed word, the word of its fields, and the bytes of a word. The round trips of the decoder rest on these. -/

namespace Sys2Proof

/-! ### Fields of the formats (R71, R72) -/

section Packs

variable (f x y n : Nibble) (nn : Byte) (nnn : Addr12)

@[simp] theorem fieldN1_packNNN : fieldN1 (packNNN f nnn) = f := by
  ext i h; interval_cases i <;> simp [fieldN1, packNNN]

@[simp] theorem fieldNNN_packNNN : fieldNNN (packNNN f nnn) = nnn := by
  ext i h; interval_cases i <;> simp [fieldNNN, packNNN]

@[simp] theorem fieldN1_packXNN : fieldN1 (packXNN f x nn) = f := by
  ext i h; interval_cases i <;> simp [fieldN1, packXNN]

@[simp] theorem fieldX_packXNN : fieldX (packXNN f x nn) = x := by
  ext i h; interval_cases i <;> simp [fieldX, packXNN]

@[simp] theorem fieldNN_packXNN : fieldNN (packXNN f x nn) = nn := by
  ext i h; interval_cases i <;> simp [fieldNN, packXNN]

@[simp] theorem fieldN1_packXYN : fieldN1 (packXYN f x y n) = f := by
  ext i h; interval_cases i <;> simp [fieldN1, packXYN]

@[simp] theorem fieldX_packXYN : fieldX (packXYN f x y n) = x := by
  ext i h; interval_cases i <;> simp [fieldX, packXYN]

@[simp] theorem fieldY_packXYN : fieldY (packXYN f x y n) = y := by
  ext i h; interval_cases i <;> simp [fieldY, packXYN]

@[simp] theorem fieldN_packXYN : fieldN (packXYN f x y n) = n := by
  ext i h; interval_cases i <;> simp [fieldN, packXYN]

end Packs

/-! ### A word is its fields -/

theorem packNNN_fields (w : Word) : packNNN (fieldN1 w) (fieldNNN w) = w := by
  ext i h; interval_cases i <;> simp [fieldN1, fieldNNN, packNNN]

theorem packXNN_fields (w : Word) : packXNN (fieldN1 w) (fieldX w) (fieldNN w) = w := by
  ext i h; interval_cases i <;> simp [fieldN1, fieldX, fieldNN, packXNN]

theorem packXYN_fields (w : Word) : packXYN (fieldN1 w) (fieldX w) (fieldY w) (fieldN w) = w := by
  ext i h; interval_cases i <;> simp [fieldN1, fieldX, fieldY, fieldN, packXYN]

/-! ### The bytes of a word (R53) -/

@[simp] theorem wordOfBytes_wordHi_wordLo (w : Word) : wordOfBytes (wordHi w) (wordLo w) = w := by
  ext i h; interval_cases i <;> simp [wordOfBytes, wordHi, wordLo]

@[simp] theorem wordHi_wordOfBytes (hi lo : Byte) : wordHi (wordOfBytes hi lo) = hi := by
  ext i h; interval_cases i <;> simp [wordOfBytes, wordHi]

@[simp] theorem wordLo_wordOfBytes (hi lo : Byte) : wordLo (wordOfBytes hi lo) = lo := by
  ext i h; interval_cases i <;> simp [wordOfBytes, wordLo]

/-- R53: the high byte of a word holds its upper eight bits as a number. -/
theorem toNat_wordOfBytes (hi lo : Byte) : (wordOfBytes hi lo).toNat = hi.toNat * 256 + lo.toNat := by
  have hhi : hi.toNat < 256 := hi.isLt
  have hlo : lo.toNat < 256 := lo.isLt
  simp only [wordOfBytes, BitVec.toNat_or, BitVec.toNat_shiftLeft, BitVec.toNat_setWidth, Nat.shiftLeft_eq]
  rw [Nat.mod_eq_of_lt (by omega : hi.toNat < 2 ^ 16), Nat.mod_eq_of_lt (by omega : lo.toNat < 2 ^ 16),
    Nat.mod_eq_of_lt (by omega : hi.toNat * 2 ^ 8 < 2 ^ 16), Nat.mul_comm, ← Nat.two_pow_add_eq_or_of_lt (by omega)]
  omega

/-! ### The byte decoder (R53, R70) -/

/-- Two bytes or more decode as the word of the first two, and the rest is given back. -/
theorem decodeBytes_word (w : Word) (rest : List Byte) :
    decodeBytes (wordHi w :: wordLo w :: rest) = (decode w).map (fun i => (i, rest)) := by
  simp only [decodeBytes, wordOfBytes_wordHi_wordLo]
  cases decode w <;> rfl

/-- The table decoder reads a 16-bit word as `decode` does. -/
theorem decodeTableWord_eq (w : Word) : decodeTableWord 16 w.toNat = (decode w).toOption := by
  have h : tableWord 16 w.toNat = w := by
    apply BitVec.eq_of_toNat_eq
    simpa [tableWord] using w.isLt
  rw [decodeTableWord, h, decodeBytes_word]
  cases decode w <;> rfl

end Sys2Proof
end

