-- ==== Sys2Proof/Laws/State.lean ====
section
/-! SUPPORT. The small lemmas of State: one for each field under each update, and reads after writes. Later proofs cite these and unfold no record update. -/

namespace Sys2Proof.Machine

variable (s : State)

/-! ### writeV -/

@[simp] theorem writeV_v (x : Nibble) (b : Byte) : (s.writeV x b).v = s.v.set x.toNat b := rfl
@[simp] theorem writeV_index (x : Nibble) (b : Byte) : (s.writeV x b).index = s.index := rfl
@[simp] theorem writeV_pc (x : Nibble) (b : Byte) : (s.writeV x b).pc = s.pc := rfl
@[simp] theorem writeV_stack (x : Nibble) (b : Byte) : (s.writeV x b).stack = s.stack := rfl
@[simp] theorem writeV_sp (x : Nibble) (b : Byte) : (s.writeV x b).sp = s.sp := rfl
@[simp] theorem writeV_dt (x : Nibble) (b : Byte) : (s.writeV x b).dt = s.dt := rfl
@[simp] theorem writeV_st (x : Nibble) (b : Byte) : (s.writeV x b).st = s.st := rfl
@[simp] theorem writeV_fb (x : Nibble) (b : Byte) : (s.writeV x b).fb = s.fb := rfl
@[simp] theorem writeV_mem (x : Nibble) (b : Byte) : (s.writeV x b).mem = s.mem := rfl
@[simp] theorem writeV_fault (x : Nibble) (b : Byte) : (s.writeV x b).fault = s.fault := rfl
@[simp] theorem writeV_faultWord (x : Nibble) (b : Byte) : (s.writeV x b).faultWord = s.faultWord := rfl
@[simp] theorem writeV_straps (x : Nibble) (b : Byte) : (s.writeV x b).straps = s.straps := rfl
@[simp] theorem writeV_input (x : Nibble) (b : Byte) : (s.writeV x b).input = s.input := rfl
@[simp] theorem writeV_schedule (x : Nibble) (b : Byte) : (s.writeV x b).schedule = s.schedule := rfl
@[simp] theorem writeV_draws (x : Nibble) (b : Byte) : (s.writeV x b).draws = s.draws := rfl

/-! ### writeIndex -/

@[simp] theorem writeIndex_v (w : Word) : (s.writeIndex w).v = s.v := rfl
@[simp] theorem writeIndex_index (w : Word) : (s.writeIndex w).index = w := rfl
@[simp] theorem writeIndex_pc (w : Word) : (s.writeIndex w).pc = s.pc := rfl
@[simp] theorem writeIndex_stack (w : Word) : (s.writeIndex w).stack = s.stack := rfl
@[simp] theorem writeIndex_sp (w : Word) : (s.writeIndex w).sp = s.sp := rfl
@[simp] theorem writeIndex_dt (w : Word) : (s.writeIndex w).dt = s.dt := rfl
@[simp] theorem writeIndex_st (w : Word) : (s.writeIndex w).st = s.st := rfl
@[simp] theorem writeIndex_fb (w : Word) : (s.writeIndex w).fb = s.fb := rfl
@[simp] theorem writeIndex_mem (w : Word) : (s.writeIndex w).mem = s.mem := rfl
@[simp] theorem writeIndex_fault (w : Word) : (s.writeIndex w).fault = s.fault := rfl
@[simp] theorem writeIndex_faultWord (w : Word) : (s.writeIndex w).faultWord = s.faultWord := rfl
@[simp] theorem writeIndex_straps (w : Word) : (s.writeIndex w).straps = s.straps := rfl
@[simp] theorem writeIndex_input (w : Word) : (s.writeIndex w).input = s.input := rfl
@[simp] theorem writeIndex_schedule (w : Word) : (s.writeIndex w).schedule = s.schedule := rfl
@[simp] theorem writeIndex_draws (w : Word) : (s.writeIndex w).draws = s.draws := rfl

/-! ### writePc -/

@[simp] theorem writePc_v (w : Word) : (s.writePc w).v = s.v := rfl
@[simp] theorem writePc_index (w : Word) : (s.writePc w).index = s.index := rfl
@[simp] theorem writePc_pc (w : Word) : (s.writePc w).pc = w := rfl
@[simp] theorem writePc_stack (w : Word) : (s.writePc w).stack = s.stack := rfl
@[simp] theorem writePc_sp (w : Word) : (s.writePc w).sp = s.sp := rfl
@[simp] theorem writePc_dt (w : Word) : (s.writePc w).dt = s.dt := rfl
@[simp] theorem writePc_st (w : Word) : (s.writePc w).st = s.st := rfl
@[simp] theorem writePc_fb (w : Word) : (s.writePc w).fb = s.fb := rfl
@[simp] theorem writePc_mem (w : Word) : (s.writePc w).mem = s.mem := rfl
@[simp] theorem writePc_fault (w : Word) : (s.writePc w).fault = s.fault := rfl
@[simp] theorem writePc_faultWord (w : Word) : (s.writePc w).faultWord = s.faultWord := rfl
@[simp] theorem writePc_straps (w : Word) : (s.writePc w).straps = s.straps := rfl
@[simp] theorem writePc_input (w : Word) : (s.writePc w).input = s.input := rfl
@[simp] theorem writePc_schedule (w : Word) : (s.writePc w).schedule = s.schedule := rfl
@[simp] theorem writePc_draws (w : Word) : (s.writePc w).draws = s.draws := rfl

/-! ### writeDt -/

@[simp] theorem writeDt_v (b : Byte) : (s.writeDt b).v = s.v := rfl
@[simp] theorem writeDt_index (b : Byte) : (s.writeDt b).index = s.index := rfl
@[simp] theorem writeDt_pc (b : Byte) : (s.writeDt b).pc = s.pc := rfl
@[simp] theorem writeDt_stack (b : Byte) : (s.writeDt b).stack = s.stack := rfl
@[simp] theorem writeDt_sp (b : Byte) : (s.writeDt b).sp = s.sp := rfl
@[simp] theorem writeDt_dt (b : Byte) : (s.writeDt b).dt = b := rfl
@[simp] theorem writeDt_st (b : Byte) : (s.writeDt b).st = s.st := rfl
@[simp] theorem writeDt_fb (b : Byte) : (s.writeDt b).fb = s.fb := rfl
@[simp] theorem writeDt_mem (b : Byte) : (s.writeDt b).mem = s.mem := rfl
@[simp] theorem writeDt_fault (b : Byte) : (s.writeDt b).fault = s.fault := rfl
@[simp] theorem writeDt_faultWord (b : Byte) : (s.writeDt b).faultWord = s.faultWord := rfl
@[simp] theorem writeDt_straps (b : Byte) : (s.writeDt b).straps = s.straps := rfl
@[simp] theorem writeDt_input (b : Byte) : (s.writeDt b).input = s.input := rfl
@[simp] theorem writeDt_schedule (b : Byte) : (s.writeDt b).schedule = s.schedule := rfl
@[simp] theorem writeDt_draws (b : Byte) : (s.writeDt b).draws = s.draws := rfl

/-! ### writeSt -/

@[simp] theorem writeSt_v (b : Byte) : (s.writeSt b).v = s.v := rfl
@[simp] theorem writeSt_index (b : Byte) : (s.writeSt b).index = s.index := rfl
@[simp] theorem writeSt_pc (b : Byte) : (s.writeSt b).pc = s.pc := rfl
@[simp] theorem writeSt_stack (b : Byte) : (s.writeSt b).stack = s.stack := rfl
@[simp] theorem writeSt_sp (b : Byte) : (s.writeSt b).sp = s.sp := rfl
@[simp] theorem writeSt_dt (b : Byte) : (s.writeSt b).dt = s.dt := rfl
@[simp] theorem writeSt_st (b : Byte) : (s.writeSt b).st = b := rfl
@[simp] theorem writeSt_fb (b : Byte) : (s.writeSt b).fb = s.fb := rfl
@[simp] theorem writeSt_mem (b : Byte) : (s.writeSt b).mem = s.mem := rfl
@[simp] theorem writeSt_fault (b : Byte) : (s.writeSt b).fault = s.fault := rfl
@[simp] theorem writeSt_faultWord (b : Byte) : (s.writeSt b).faultWord = s.faultWord := rfl
@[simp] theorem writeSt_straps (b : Byte) : (s.writeSt b).straps = s.straps := rfl
@[simp] theorem writeSt_input (b : Byte) : (s.writeSt b).input = s.input := rfl
@[simp] theorem writeSt_schedule (b : Byte) : (s.writeSt b).schedule = s.schedule := rfl
@[simp] theorem writeSt_draws (b : Byte) : (s.writeSt b).draws = s.draws := rfl

/-! ### writeMem -/

@[simp] theorem writeMem_v (m : Memory) : (s.writeMem m).v = s.v := rfl
@[simp] theorem writeMem_index (m : Memory) : (s.writeMem m).index = s.index := rfl
@[simp] theorem writeMem_pc (m : Memory) : (s.writeMem m).pc = s.pc := rfl
@[simp] theorem writeMem_stack (m : Memory) : (s.writeMem m).stack = s.stack := rfl
@[simp] theorem writeMem_sp (m : Memory) : (s.writeMem m).sp = s.sp := rfl
@[simp] theorem writeMem_dt (m : Memory) : (s.writeMem m).dt = s.dt := rfl
@[simp] theorem writeMem_st (m : Memory) : (s.writeMem m).st = s.st := rfl
@[simp] theorem writeMem_fb (m : Memory) : (s.writeMem m).fb = s.fb := rfl
@[simp] theorem writeMem_mem (m : Memory) : (s.writeMem m).mem = m := rfl
@[simp] theorem writeMem_fault (m : Memory) : (s.writeMem m).fault = s.fault := rfl
@[simp] theorem writeMem_faultWord (m : Memory) : (s.writeMem m).faultWord = s.faultWord := rfl
@[simp] theorem writeMem_straps (m : Memory) : (s.writeMem m).straps = s.straps := rfl
@[simp] theorem writeMem_input (m : Memory) : (s.writeMem m).input = s.input := rfl
@[simp] theorem writeMem_schedule (m : Memory) : (s.writeMem m).schedule = s.schedule := rfl
@[simp] theorem writeMem_draws (m : Memory) : (s.writeMem m).draws = s.draws := rfl

/-! ### writeFb -/

@[simp] theorem writeFb_v (f : Framebuffer) : (s.writeFb f).v = s.v := rfl
@[simp] theorem writeFb_index (f : Framebuffer) : (s.writeFb f).index = s.index := rfl
@[simp] theorem writeFb_pc (f : Framebuffer) : (s.writeFb f).pc = s.pc := rfl
@[simp] theorem writeFb_stack (f : Framebuffer) : (s.writeFb f).stack = s.stack := rfl
@[simp] theorem writeFb_sp (f : Framebuffer) : (s.writeFb f).sp = s.sp := rfl
@[simp] theorem writeFb_dt (f : Framebuffer) : (s.writeFb f).dt = s.dt := rfl
@[simp] theorem writeFb_st (f : Framebuffer) : (s.writeFb f).st = s.st := rfl
@[simp] theorem writeFb_fb (f : Framebuffer) : (s.writeFb f).fb = f := rfl
@[simp] theorem writeFb_mem (f : Framebuffer) : (s.writeFb f).mem = s.mem := rfl
@[simp] theorem writeFb_fault (f : Framebuffer) : (s.writeFb f).fault = s.fault := rfl
@[simp] theorem writeFb_faultWord (f : Framebuffer) : (s.writeFb f).faultWord = s.faultWord := rfl
@[simp] theorem writeFb_straps (f : Framebuffer) : (s.writeFb f).straps = s.straps := rfl
@[simp] theorem writeFb_input (f : Framebuffer) : (s.writeFb f).input = s.input := rfl
@[simp] theorem writeFb_schedule (f : Framebuffer) : (s.writeFb f).schedule = s.schedule := rfl
@[simp] theorem writeFb_draws (f : Framebuffer) : (s.writeFb f).draws = s.draws := rfl

/-! ### pushStack -/

@[simp] theorem pushStack_v (w : Word) : (s.pushStack w).v = s.v := rfl
@[simp] theorem pushStack_index (w : Word) : (s.pushStack w).index = s.index := rfl
@[simp] theorem pushStack_pc (w : Word) : (s.pushStack w).pc = s.pc := rfl
@[simp] theorem pushStack_stack (w : Word) : (s.pushStack w).stack = s.stack.set (s.sp.setWidth 4).toNat w := rfl
@[simp] theorem pushStack_sp (w : Word) : (s.pushStack w).sp = s.sp + 1#5 := rfl
@[simp] theorem pushStack_dt (w : Word) : (s.pushStack w).dt = s.dt := rfl
@[simp] theorem pushStack_st (w : Word) : (s.pushStack w).st = s.st := rfl
@[simp] theorem pushStack_fb (w : Word) : (s.pushStack w).fb = s.fb := rfl
@[simp] theorem pushStack_mem (w : Word) : (s.pushStack w).mem = s.mem := rfl
@[simp] theorem pushStack_fault (w : Word) : (s.pushStack w).fault = s.fault := rfl
@[simp] theorem pushStack_faultWord (w : Word) : (s.pushStack w).faultWord = s.faultWord := rfl
@[simp] theorem pushStack_straps (w : Word) : (s.pushStack w).straps = s.straps := rfl
@[simp] theorem pushStack_input (w : Word) : (s.pushStack w).input = s.input := rfl
@[simp] theorem pushStack_schedule (w : Word) : (s.pushStack w).schedule = s.schedule := rfl
@[simp] theorem pushStack_draws (w : Word) : (s.pushStack w).draws = s.draws := rfl

/-! ### popStack -/

@[simp] theorem popStack_v : (s.popStack).v = s.v := rfl
@[simp] theorem popStack_index : (s.popStack).index = s.index := rfl
@[simp] theorem popStack_pc : (s.popStack).pc = s.readStack ((s.sp - 1#5).setWidth 4) := rfl
@[simp] theorem popStack_stack : (s.popStack).stack = s.stack := rfl
@[simp] theorem popStack_sp : (s.popStack).sp = s.sp - 1#5 := rfl
@[simp] theorem popStack_dt : (s.popStack).dt = s.dt := rfl
@[simp] theorem popStack_st : (s.popStack).st = s.st := rfl
@[simp] theorem popStack_fb : (s.popStack).fb = s.fb := rfl
@[simp] theorem popStack_mem : (s.popStack).mem = s.mem := rfl
@[simp] theorem popStack_fault : (s.popStack).fault = s.fault := rfl
@[simp] theorem popStack_faultWord : (s.popStack).faultWord = s.faultWord := rfl
@[simp] theorem popStack_straps : (s.popStack).straps = s.straps := rfl
@[simp] theorem popStack_input : (s.popStack).input = s.input := rfl
@[simp] theorem popStack_schedule : (s.popStack).schedule = s.schedule := rfl
@[simp] theorem popStack_draws : (s.popStack).draws = s.draws := rfl

/-! ### raise -/

@[simp] theorem raise_v (f : FaultLatch) (w : Word) : (raise f w s).v = s.v := rfl
@[simp] theorem raise_index (f : FaultLatch) (w : Word) : (raise f w s).index = s.index := rfl
@[simp] theorem raise_pc (f : FaultLatch) (w : Word) : (raise f w s).pc = s.pc := rfl
@[simp] theorem raise_stack (f : FaultLatch) (w : Word) : (raise f w s).stack = s.stack := rfl
@[simp] theorem raise_sp (f : FaultLatch) (w : Word) : (raise f w s).sp = s.sp := rfl
@[simp] theorem raise_dt (f : FaultLatch) (w : Word) : (raise f w s).dt = s.dt := rfl
@[simp] theorem raise_st (f : FaultLatch) (w : Word) : (raise f w s).st = s.st := rfl
@[simp] theorem raise_fb (f : FaultLatch) (w : Word) : (raise f w s).fb = s.fb := rfl
@[simp] theorem raise_mem (f : FaultLatch) (w : Word) : (raise f w s).mem = s.mem := rfl
@[simp] theorem raise_fault (f : FaultLatch) (w : Word) : (raise f w s).fault = f := rfl
@[simp] theorem raise_faultWord (f : FaultLatch) (w : Word) : (raise f w s).faultWord = w := rfl
@[simp] theorem raise_straps (f : FaultLatch) (w : Word) : (raise f w s).straps = s.straps := rfl
@[simp] theorem raise_input (f : FaultLatch) (w : Word) : (raise f w s).input = s.input := rfl
@[simp] theorem raise_schedule (f : FaultLatch) (w : Word) : (raise f w s).schedule = s.schedule := rfl
@[simp] theorem raise_draws (f : FaultLatch) (w : Word) : (raise f w s).draws = s.draws := rfl

/-! ### beginStep -/

@[simp] theorem beginStep_v : (beginStep s).v = s.v := rfl
@[simp] theorem beginStep_index : (beginStep s).index = s.index := rfl
@[simp] theorem beginStep_pc : (beginStep s).pc = s.pc + 2#16 := rfl
@[simp] theorem beginStep_stack : (beginStep s).stack = s.stack := rfl
@[simp] theorem beginStep_sp : (beginStep s).sp = s.sp := rfl
@[simp] theorem beginStep_dt : (beginStep s).dt = decrementTimer s.dt s.input.elapsedTicks := rfl
@[simp] theorem beginStep_st : (beginStep s).st = decrementTimer s.st s.input.elapsedTicks := rfl
@[simp] theorem beginStep_fb : (beginStep s).fb = s.fb := rfl
@[simp] theorem beginStep_mem : (beginStep s).mem = s.mem := rfl
@[simp] theorem beginStep_fault : (beginStep s).fault = s.fault := rfl
@[simp] theorem beginStep_faultWord : (beginStep s).faultWord = s.faultWord := rfl
@[simp] theorem beginStep_straps : (beginStep s).straps = s.straps := rfl
@[simp] theorem beginStep_input : (beginStep s).input = s.input := rfl
@[simp] theorem beginStep_schedule : (beginStep s).schedule = s.schedule := rfl
@[simp] theorem beginStep_draws : (beginStep s).draws = s.draws := rfl

/-! ### presentNextInput: only the model's own input fields change -/

@[simp] theorem presentNextInput_v : (presentNextInput s).v = s.v := by
  unfold presentNextInput; split <;> rfl
@[simp] theorem presentNextInput_index : (presentNextInput s).index = s.index := by
  unfold presentNextInput; split <;> rfl
@[simp] theorem presentNextInput_pc : (presentNextInput s).pc = s.pc := by
  unfold presentNextInput; split <;> rfl
@[simp] theorem presentNextInput_stack : (presentNextInput s).stack = s.stack := by
  unfold presentNextInput; split <;> rfl
@[simp] theorem presentNextInput_sp : (presentNextInput s).sp = s.sp := by
  unfold presentNextInput; split <;> rfl
@[simp] theorem presentNextInput_dt : (presentNextInput s).dt = s.dt := by
  unfold presentNextInput; split <;> rfl
@[simp] theorem presentNextInput_st : (presentNextInput s).st = s.st := by
  unfold presentNextInput; split <;> rfl
@[simp] theorem presentNextInput_fb : (presentNextInput s).fb = s.fb := by
  unfold presentNextInput; split <;> rfl
@[simp] theorem presentNextInput_mem : (presentNextInput s).mem = s.mem := by
  unfold presentNextInput; split <;> rfl
@[simp] theorem presentNextInput_fault : (presentNextInput s).fault = s.fault := by
  unfold presentNextInput; split <;> rfl
@[simp] theorem presentNextInput_faultWord : (presentNextInput s).faultWord = s.faultWord := by
  unfold presentNextInput; split <;> rfl
@[simp] theorem presentNextInput_straps : (presentNextInput s).straps = s.straps := by
  unfold presentNextInput; split <;> rfl

/-! ### The step's own names for parts of the state -/

@[simp] theorem halted_iff : halted s = true ↔ s.fault ≠ .none := by simp [halted]

@[simp] theorem halted_false_iff : halted s = false ↔ s.fault = .none := by simp [halted]

theorem fetch_eq : fetch s = Memory.fetchWord s.mem s.pc.toNat := rfl

/-! ### Register reads after writes -/

theorem readV_congr {s t : State} (h : s.v = t.v) (x : Nibble) : s.readV x = t.readV x := by
  simp [State.readV, h]

/-- A read after a register write: the value written where the numbers agree, else the old value (R20). -/
theorem readV_writeV (x y : Nibble) (b : Byte) : (s.writeV x b).readV y = if x = y then b else s.readV y := by
  simp [State.readV, Vector.getElem_set, BitVec.toNat_inj]

@[simp] theorem readV_writeV_same (x : Nibble) (b : Byte) : (s.writeV x b).readV x = b := by
  simp [readV_writeV]

@[simp] theorem readV_writeV_ne {x y : Nibble} (h : x ≠ y) (b : Byte) : (s.writeV x b).readV y = s.readV y := by
  simp [readV_writeV, h]

@[simp] theorem readV_writeIndex (w : Word) (x : Nibble) : (s.writeIndex w).readV x = s.readV x := rfl
@[simp] theorem readV_writePc (w : Word) (x : Nibble) : (s.writePc w).readV x = s.readV x := rfl
@[simp] theorem readV_writeDt (b : Byte) (x : Nibble) : (s.writeDt b).readV x = s.readV x := rfl
@[simp] theorem readV_writeSt (b : Byte) (x : Nibble) : (s.writeSt b).readV x = s.readV x := rfl
@[simp] theorem readV_writeMem (m : Memory) (x : Nibble) : (s.writeMem m).readV x = s.readV x := rfl
@[simp] theorem readV_writeFb (f : Framebuffer) (x : Nibble) : (s.writeFb f).readV x = s.readV x := rfl
@[simp] theorem readV_pushStack (w : Word) (x : Nibble) : (s.pushStack w).readV x = s.readV x := rfl
@[simp] theorem readV_popStack (x : Nibble) : (s.popStack).readV x = s.readV x := rfl
@[simp] theorem readV_raise (f : FaultLatch) (w : Word) (x : Nibble) : (raise f w s).readV x = s.readV x := rfl
@[simp] theorem readV_beginStep (x : Nibble) : (beginStep s).readV x = s.readV x := rfl

@[simp] theorem readStack_writeV (x : Nibble) (b : Byte) (k : Nibble) : (s.writeV x b).readStack k = s.readStack k := rfl
@[simp] theorem readStack_writeIndex (w : Word) (k : Nibble) : (s.writeIndex w).readStack k = s.readStack k := rfl
@[simp] theorem readStack_writePc (w : Word) (k : Nibble) : (s.writePc w).readStack k = s.readStack k := rfl
@[simp] theorem readStack_writeDt (b : Byte) (k : Nibble) : (s.writeDt b).readStack k = s.readStack k := rfl
@[simp] theorem readStack_writeSt (b : Byte) (k : Nibble) : (s.writeSt b).readStack k = s.readStack k := rfl
@[simp] theorem readStack_writeMem (m : Memory) (k : Nibble) : (s.writeMem m).readStack k = s.readStack k := rfl
@[simp] theorem readStack_writeFb (f : Framebuffer) (k : Nibble) : (s.writeFb f).readStack k = s.readStack k := rfl
@[simp] theorem readStack_raise (f : FaultLatch) (w : Word) (k : Nibble) : (raise f w s).readStack k = s.readStack k := rfl
@[simp] theorem readStack_beginStep (k : Nibble) : (beginStep s).readStack k = s.readStack k := rfl

@[simp] theorem readStack_presentNextInput (k : Nibble) : (presentNextInput s).readStack k = s.readStack k := by
  simp [State.readStack]

@[simp] theorem readV_presentNextInput (x : Nibble) : (presentNextInput s).readV x = s.readV x :=
  readV_congr (by simp) x

/-! ### The result and the flag (R150): the flag is written last -/

@[simp] theorem writeResultAndFlag_index (x : Nibble) (r f : Byte) : (s.writeResultAndFlag x r f).index = s.index := rfl
@[simp] theorem writeResultAndFlag_pc (x : Nibble) (r f : Byte) : (s.writeResultAndFlag x r f).pc = s.pc := rfl
@[simp] theorem writeResultAndFlag_stack (x : Nibble) (r f : Byte) : (s.writeResultAndFlag x r f).stack = s.stack := rfl
@[simp] theorem writeResultAndFlag_sp (x : Nibble) (r f : Byte) : (s.writeResultAndFlag x r f).sp = s.sp := rfl
@[simp] theorem writeResultAndFlag_dt (x : Nibble) (r f : Byte) : (s.writeResultAndFlag x r f).dt = s.dt := rfl
@[simp] theorem writeResultAndFlag_st (x : Nibble) (r f : Byte) : (s.writeResultAndFlag x r f).st = s.st := rfl
@[simp] theorem writeResultAndFlag_fb (x : Nibble) (r f : Byte) : (s.writeResultAndFlag x r f).fb = s.fb := rfl
@[simp] theorem writeResultAndFlag_mem (x : Nibble) (r f : Byte) : (s.writeResultAndFlag x r f).mem = s.mem := rfl
@[simp] theorem writeResultAndFlag_fault (x : Nibble) (r f : Byte) : (s.writeResultAndFlag x r f).fault = s.fault := rfl
@[simp] theorem writeResultAndFlag_faultWord (x : Nibble) (r f : Byte) : (s.writeResultAndFlag x r f).faultWord = s.faultWord := rfl
@[simp] theorem writeResultAndFlag_straps (x : Nibble) (r f : Byte) : (s.writeResultAndFlag x r f).straps = s.straps := rfl
@[simp] theorem writeResultAndFlag_input (x : Nibble) (r f : Byte) : (s.writeResultAndFlag x r f).input = s.input := rfl
@[simp] theorem writeResultAndFlag_schedule (x : Nibble) (r f : Byte) : (s.writeResultAndFlag x r f).schedule = s.schedule := rfl
@[simp] theorem writeResultAndFlag_draws (x : Nibble) (r f : Byte) : (s.writeResultAndFlag x r f).draws = s.draws := rfl

@[simp] theorem readStack_writeResultAndFlag (x : Nibble) (r f : Byte) (k : Nibble) :
    (s.writeResultAndFlag x r f).readStack k = s.readStack k := rfl

/-- All a flag-writing ALU operation does to the registers: VF is the flag, then V[x] the result, and the rest are unchanged (R150). -/
theorem readV_writeResultAndFlag (x y : Nibble) (r f : Byte) :
    (s.writeResultAndFlag x r f).readV y = if y = 0xF#4 then f else if y = x then r else s.readV y := by
  unfold State.writeResultAndFlag
  rw [readV_writeV, readV_writeV]
  by_cases h : 0xF#4 = y
  · subst h; rfl
  · simp only [if_neg h, if_neg (Ne.symm h)]
    by_cases hx : x = y
    · subst hx; rfl
    · simp only [if_neg hx, if_neg (Ne.symm hx)]

/-! ### The call stack (R24, R25) -/

theorem readStack_pushStack (w : Word) (k : Nibble) :
    (s.pushStack w).readStack k = if k = s.sp.setWidth 4 then w else s.readStack k := by
  unfold State.readStack
  simp only [pushStack_stack, Vector.getElem_set, BitVec.toNat_inj]
  by_cases h : k = s.sp.setWidth 4
  · simp [h]
  · simp [h, Ne.symm h]

@[simp] theorem readStack_popStack (k : Nibble) : s.popStack.readStack k = s.readStack k := rfl

/-- The code of the latch tells the four values apart (R30, R230). -/
theorem code_injective (f g : FaultLatch) (h : f.code = g.code) : f = g := by
  cases f <;> cases g <;> simp_all [FaultLatch.code]

end Sys2Proof.Machine
end

