-- ==== Sys2Proof/Laws/Operands.lean ====
section
/-! SUPPORT. What the operand forms and the flags are as numbers, and what the register block operations do. -/

namespace Sys2Proof.Machine

/-! ### Flags (R151) -/

@[simp] theorem flagByte_toNat (f : Bool) : (flagByte f).toNat = if f then 1 else 0 := by cases f <;> rfl

theorem flagByte_eq_one (f : Bool) : flagByte f = 0x01#8 ↔ f = true := by cases f <;> simp [flagByte]

theorem flagByte_zero_or_one (f : Bool) : flagByte f = 0x01#8 ∨ flagByte f = 0x00#8 := by cases f <;> simp [flagByte]

theorem shiftedOutRight_toNat (a : Byte) : (flagByte (shiftedOutRight a)).toNat = a.toNat % 2 := by
  rw [flagByte_toNat, shiftedOutRight, BitVec.getLsbD, Nat.testBit_zero]
  rcases Nat.mod_two_eq_zero_or_one a.toNat with h | h <;> simp [h]

theorem shiftedOutLeft_toNat (a : Byte) : (flagByte (shiftedOutLeft a)).toNat = a.toNat / 128 := by
  have := a.isLt
  rw [flagByte_toNat, shiftedOutLeft, BitVec.getLsbD, Nat.testBit_eq_decide_div_mod_eq]
  simp only [decide_eq_true_eq]
  split <;> omega

/-! ### Operands -/

@[simp] theorem addressOperand_toNat (nnn : Addr12) : (addressOperand nnn).toNat = nnn.toNat := by
  have := nnn.isLt
  simp [addressOperand, BitVec.toNat_setWidth]
  omega

theorem shiftOperand_eq (s : State) (x y : Nibble) :
    shiftOperand s x y = s.readV (if s.straps.qShift then y else x) := by
  unfold shiftOperand; split <;> rfl

@[simp] theorem keyOperand_toNat (s : State) (x : Nibble) : (keyOperand s x).toNat = (s.readV x).toNat % 16 := by
  simp [keyOperand]

theorem indexPastBlock_toNat (s : State) (x : Nibble) :
    (indexPastBlock s x).toNat = (s.index.toNat + x.toNat + 1) % 65536 := by
  have := x.isLt
  simp only [indexPastBlock, BitVec.toNat_add, BitVec.toNat_setWidth, BitVec.toNat_ofNat]
  omega

@[simp] theorem fontAddress_toNat (a : Byte) : (fontAddress a).toNat = 0x50 + 5 * a.toNat := by
  have := a.isLt
  simp only [fontAddress, fontBase, BitVec.toNat_ofNat]
  omega

theorem decrementTimer_toNat (t : Byte) (ticks : Nat) : (decrementTimer t ticks).toNat = t.toNat - ticks := by
  have := t.isLt
  simp only [decrementTimer, BitVec.toNat_ofNat]
  omega

/-! ### Keys (R212) -/

/-- With some key down, the key chosen is down and no lower one is. -/
theorem lowestPressedKey_spec (keys : BitVec 16) (h : keys ≠ 0#16) :
    lowestPressedKey keys < 16 ∧ keys.getLsbD (lowestPressedKey keys) = true ∧
      ∀ k < lowestPressedKey keys, keys.getLsbD k = false := by
  unfold lowestPressedKey
  cases hf : (List.range 16).find? (fun k => keys.getLsbD k) with
  | none =>
    exfalso; apply h
    apply BitVec.eq_of_getLsbD_eq
    intro i hi
    have := List.find?_eq_none.mp hf i (List.mem_range.mpr hi)
    simpa using this
  | some k =>
    obtain ⟨hp, i, hi, hik, hlow⟩ := List.find?_eq_some_iff_getElem.mp hf
    simp only [List.getElem_range] at hik hlow
    subst hik
    refine ⟨by simpa using hi, hp, fun j hj => ?_⟩
    simpa using hlow j hj

/-! ### The register block (R175, R176) -/

@[simp] theorem registerBlock_length (s : State) (x : Nibble) : (registerBlock s x).length = x.toNat + 1 := by
  simp [registerBlock]

@[simp] theorem registerBlock_getElem (s : State) (x : Nibble) (k : Nat) (h : k < (registerBlock s x).length) :
    (registerBlock s x)[k] = s.readV (BitVec.ofNat 4 k) := by
  simp [registerBlock]

/-- Loading registers changes the register file alone. -/
theorem loadRegisters_frame (s : State) (n : Nat) : loadRegisters s n = { s with v := (loadRegisters s n).v } := by
  induction n with
  | zero => rfl
  | succ k ih => rw [loadRegisters, ih]; rfl

/-- The registers below the count hold the bytes from I on, the others are unchanged. -/
theorem readV_loadRegisters (s : State) (n : Nat) (hn : n ≤ 16) (r : Nibble) :
    (loadRegisters s n).readV r =
      if r.toNat < n then Memory.read s.mem (indexAddress s r.toNat) else s.readV r := by
  induction n with
  | zero => simp [loadRegisters]
  | succ k ih =>
    rw [loadRegisters, readV_writeV, ih (by omega)]
    by_cases h : BitVec.ofNat 4 k = r
    · subst h
      have : k % 16 = k := Nat.mod_eq_of_lt (by omega)
      simp [this]
    · have hne : r.toNat ≠ k := by
        rintro rfl; exact h (by simp)
      simp only [if_neg h]
      by_cases hk : r.toNat < k
      · simp [hk, Nat.lt_succ_of_lt hk]
      · rw [if_neg hk, if_neg (by omega)]

end Sys2Proof.Machine
end

