-- ==== Sys2Proof/Laws/Display.lean ====
section
/-! SUPPORT. The laws of drawing, pixel by pixel: one cell flipped, one row, one sprite. -/

namespace Sys2Proof.Machine

/-! ### Cells -/

/-- Two framebuffers that agree on every cell are one. -/
theorem framebuffer_ext {f g : Framebuffer}
    (h : ∀ c r, c < 64 → r < 32 → Framebuffer.cell f (r * 64 + c) = Framebuffer.cell g (r * 64 + c)) : f = g := by
  apply Vector.ext
  intro r hr
  apply BitVec.eq_of_getLsbD_eq
  intro c hc
  have := h c r hc hr
  simpa [Framebuffer.cell, show (r * 64 + c) / 64 = r by omega, show (r * 64 + c) % 64 = c by omega, Vector.getD, hr] using this

/-- A flip changes its own cell and no other (R192). -/
theorem cell_flip (fb : Framebuffer) (k j : Nat) (hk : k < 2048) :
    Framebuffer.cell (Framebuffer.flip fb k) j = (Framebuffer.cell fb j != decide (j = k)) := by
  have hrow : k / 64 < 32 := by omega
  unfold Framebuffer.cell Framebuffer.flip
  by_cases hr : j / 64 = k / 64
  · have hj : (decide (j = k)) = decide (k % 64 = j % 64) := by
      apply decide_eq_decide.mpr; omega
    rw [hj, hr]
    have : j % 64 < 64 := by omega
    simp [Vector.getD, hrow, this]
    by_cases h : k % 64 = j % 64 <;> simp [h, eq_comm]
  · have hj : j ≠ k := fun h => hr (by rw [h])
    simp [Vector.getD, hj, Ne.symm hr]

/-- Every cell of a cleared framebuffer is 0 (R191). -/
theorem cell_cleared (k : Nat) : Framebuffer.cell (Vector.replicate 32 0#64) k = false := by
  unfold Framebuffer.cell
  by_cases h : k / 64 < 32 <;> simp [Vector.getD, h]

/-! ### One row -/

/-- Column `c` has a 1 bit of a sprite byte whose first `count` columns start at `x0`; bit 7 is the leftmost (R192). -/
def columnBit (b : Byte) (x0 count c : Nat) : Bool := decide (x0 ≤ c ∧ c < x0 + count) && b.getLsbD (7 - (c - x0))

theorem columnBit_succ (b : Byte) (x0 count c : Nat) :
    columnBit b x0 (count + 1) c = if c = x0 + count then b.getLsbD (7 - count) else columnBit b x0 count c := by
  unfold columnBit
  by_cases h : c = x0 + count
  · subst h
    simp
  · rw [if_neg h, decide_eq_decide.mpr (show (x0 ≤ c ∧ c < x0 + (count + 1)) ↔ (x0 ≤ c ∧ c < x0 + count) by omega)]

/-- A row's drawing flips exactly the on-screen cells of its 1 bits. -/
theorem cell_drawColumns (b : Byte) (x0 y : Nat) (d : Drawing) (count : Nat) (hy : y < 32) (c r : Nat) (hc : c < 64) :
    Framebuffer.cell (drawColumns b x0 y d count).1 (r * 64 + c) =
      (Framebuffer.cell d.1 (r * 64 + c) != (decide (r = y) && columnBit b x0 count c)) := by
  induction count with
  | zero => simp [drawColumns, columnBit, show ¬ (x0 ≤ c ∧ c < x0) by omega]
  | succ col ih =>
    rw [drawColumns, drawColumn, columnBit_succ]
    split
    · rw [ih, if_neg (by omega)]
    · split
      · rename_i hx hb
        rw [cell_flip _ _ _ (by omega), ih]
        by_cases hcx : c = x0 + col
        · subst hcx
          have h0 : columnBit b x0 col (x0 + col) = false := by simp [columnBit]
          rw [if_pos rfl, hb, h0]
          by_cases hr : r = y
          · subst hr; simp
          · simp [hr]
        · rw [if_neg hcx]
          have : r * 64 + c ≠ y * 64 + (x0 + col) := by omega
          simp [this]
      · rename_i hx hb
        rw [ih]
        by_cases hcx : c = x0 + col
        · subst hcx; simp [columnBit, hb]
        · rw [if_neg hcx]

/-- A row's drawing collides exactly when one of its 1 bits is on a set cell. -/
theorem collides_drawColumns (b : Byte) (x0 y : Nat) (d : Drawing) (count : Nat) (hy : y < 32) :
    (drawColumns b x0 y d count).2 = true ↔
      d.2 = true ∨ ∃ c < 64, columnBit b x0 count c = true ∧ Framebuffer.cell d.1 (y * 64 + c) = true := by
  induction count with
  | zero => simp [drawColumns, columnBit]
  | succ col ih =>
    rw [drawColumns, drawColumn]
    split
    · rename_i hx
      rw [ih]
      refine or_congr_right (exists_congr fun c => and_congr_right fun hc => ?_)
      rw [columnBit_succ, if_neg (by omega)]
    · split
      · rename_i hx hb
        have hcell := cell_drawColumns b x0 y d col hy (x0 + col) y (by omega)
        have h0 : columnBit b x0 col (x0 + col) = false := by simp [columnBit]
        simp only [Bool.or_eq_true, ih, hcell, h0, Bool.and_false, Bool.bne_false]
        constructor
        · rintro ((h | ⟨c, hc, hcb, hcc⟩) | h)
          · exact .inl h
          · refine .inr ⟨c, hc, ?_, hcc⟩
            rw [columnBit_succ]
            split
            · exact hb
            · exact hcb
          · exact .inr ⟨x0 + col, by omega, by rw [columnBit_succ, if_pos rfl]; exact hb, h⟩
        · rintro (h | ⟨c, hc, hcb, hcc⟩)
          · exact .inl (.inl h)
          · rw [columnBit_succ] at hcb
            by_cases hcx : c = x0 + col
            · subst hcx; exact .inr hcc
            · rw [if_neg hcx] at hcb
              exact .inl (.inr ⟨c, hc, hcb, hcc⟩)
      · rename_i hx hb
        rw [ih]
        refine or_congr_right (exists_congr fun c => and_congr_right fun hc => ?_)
        rw [columnBit_succ]
        by_cases hcx : c = x0 + col
        · subst hcx; simp [columnBit, hb]
        · rw [if_neg hcx]

/-! ### A sprite -/

/-- The first `count` rows of a sprite at the origin have a 1 bit on column `c` of row `r`. -/
def spriteBit (s : State) (x0 y0 count c r : Nat) : Bool :=
  decide (y0 ≤ r ∧ r < y0 + count) && columnBit (Memory.read s.mem (indexAddress s (r - y0))) x0 8 c

theorem spriteBit_succ (s : State) (x0 y0 count c r : Nat) :
    spriteBit s x0 y0 (count + 1) c r =
      if r = y0 + count then columnBit (Memory.read s.mem (indexAddress s count)) x0 8 c else spriteBit s x0 y0 count c r := by
  unfold spriteBit
  by_cases h : r = y0 + count
  · subst h
    simp
  · rw [if_neg h, decide_eq_decide.mpr (show (y0 ≤ r ∧ r < y0 + (count + 1)) ↔ (y0 ≤ r ∧ r < y0 + count) by omega)]

/-- R192, R193: drawing a sprite flips exactly the on-screen cells of its 1 bits. -/
theorem cell_drawRows (s : State) (x0 y0 : Nat) (d : Drawing) (count : Nat) (c r : Nat) (hc : c < 64) (hr : r < 32) :
    Framebuffer.cell (drawRows s x0 y0 d count).1 (r * 64 + c) =
      (Framebuffer.cell d.1 (r * 64 + c) != spriteBit s x0 y0 count c r) := by
  induction count with
  | zero => simp [drawRows, spriteBit, show ¬ (y0 ≤ r ∧ r < y0) by omega]
  | succ row ih =>
    rw [drawRows, spriteBit_succ]
    split
    · rw [ih, if_neg (by omega)]
    · rw [cell_drawColumns _ _ _ _ _ (by omega) _ _ hc, ih]
      by_cases hrow : r = y0 + row
      · subst hrow
        simp [spriteBit]
      · simp [hrow]

/-- R194: drawing a sprite collides exactly when one of its 1 bits is on a set cell. -/
theorem collides_drawRows (s : State) (x0 y0 : Nat) (d : Drawing) (count : Nat) :
    (drawRows s x0 y0 d count).2 = true ↔
      d.2 = true ∨ ∃ c r, c < 64 ∧ r < 32 ∧ spriteBit s x0 y0 count c r = true ∧ Framebuffer.cell d.1 (r * 64 + c) = true := by
  induction count with
  | zero => simp [drawRows, spriteBit]
  | succ row ih =>
    rw [drawRows]
    split
    · rename_i hy
      rw [ih]
      refine or_congr_right (exists_congr fun c => exists_congr fun r => and_congr_right fun hc => and_congr_right fun hr => ?_)
      rw [spriteBit_succ, if_neg (by omega)]
    · rename_i hy
      rw [collides_drawColumns _ _ _ _ _ (by omega), ih]
      have hcell : ∀ c < 64, Framebuffer.cell (drawRows s x0 y0 d row).1 ((y0 + row) * 64 + c) =
          Framebuffer.cell d.1 ((y0 + row) * 64 + c) := by
        intro c hc
        rw [cell_drawRows s x0 y0 d row c (y0 + row) hc (by omega)]
        simp [spriteBit]
      constructor
      · rintro ((h | ⟨c, r, hc, hr, hb, hs⟩) | ⟨c, hc, hb, hs⟩)
        · exact .inl h
        · refine .inr ⟨c, r, hc, hr, ?_, hs⟩
          rw [spriteBit_succ, if_neg, hb]
          rintro rfl
          simp [spriteBit] at hb
        · exact .inr ⟨c, y0 + row, hc, by omega, by rw [spriteBit_succ, if_pos rfl]; exact hb, by rw [← hcell c hc]; exact hs⟩
      · rintro (h | ⟨c, r, hc, hr, hb, hs⟩)
        · exact .inl (.inl h)
        · rw [spriteBit_succ] at hb
          by_cases hrow : r = y0 + row
          · subst hrow
            rw [if_pos rfl] at hb
            exact .inr ⟨c, hc, hb, by rw [hcell c hc]; exact hs⟩
          · rw [if_neg hrow] at hb
            exact .inl (.inr ⟨c, r, hc, hr, hb, hs⟩)

/-- Drawing depends on the state through I and the sprite's bytes alone. -/
theorem drawRows_congr (s s' : State) (x0 y0 : Nat) (d : Drawing) (count : Nat)
    (h : ∀ k < count, Memory.read s.mem (indexAddress s k) = Memory.read s'.mem (indexAddress s' k)) :
    drawRows s x0 y0 d count = drawRows s' x0 y0 d count := by
  induction count with
  | zero => rfl
  | succ row ih => rw [drawRows, drawRows, ih (fun k hk => h k (by omega)), h row (by omega)]

end Sys2Proof.Machine
end

