-- ==== Sys2Proof/Laws/Meanings.lean ====
section
/-! SUPPORT. The fields under the operations that branch or loop: the skip, the flag of Fx1E, and the register load. -/

namespace Sys2Proof.Machine

variable (s : State)

/-! ### skipIf: PC alone (R120) -/

theorem skipIf_pc (c : Bool) : (skipIf c s).pc = if c then s.pc + 2#16 else s.pc := by
  unfold skipIf; split <;> rfl

@[simp] theorem skipIf_v (c : Bool) : (skipIf c s).v = s.v := by cases c <;> rfl
@[simp] theorem skipIf_index (c : Bool) : (skipIf c s).index = s.index := by cases c <;> rfl
@[simp] theorem skipIf_stack (c : Bool) : (skipIf c s).stack = s.stack := by cases c <;> rfl
@[simp] theorem skipIf_sp (c : Bool) : (skipIf c s).sp = s.sp := by cases c <;> rfl
@[simp] theorem skipIf_dt (c : Bool) : (skipIf c s).dt = s.dt := by cases c <;> rfl
@[simp] theorem skipIf_st (c : Bool) : (skipIf c s).st = s.st := by cases c <;> rfl
@[simp] theorem skipIf_fb (c : Bool) : (skipIf c s).fb = s.fb := by cases c <;> rfl
@[simp] theorem skipIf_mem (c : Bool) : (skipIf c s).mem = s.mem := by cases c <;> rfl
@[simp] theorem skipIf_fault (c : Bool) : (skipIf c s).fault = s.fault := by cases c <;> rfl
@[simp] theorem skipIf_faultWord (c : Bool) : (skipIf c s).faultWord = s.faultWord := by cases c <;> rfl
@[simp] theorem skipIf_straps (c : Bool) : (skipIf c s).straps = s.straps := by cases c <;> rfl
@[simp] theorem skipIf_input (c : Bool) : (skipIf c s).input = s.input := by cases c <;> rfl
@[simp] theorem skipIf_schedule (c : Bool) : (skipIf c s).schedule = s.schedule := by cases c <;> rfl
@[simp] theorem skipIf_draws (c : Bool) : (skipIf c s).draws = s.draws := by cases c <;> rfl

@[simp] theorem readV_skipIf (c : Bool) (x : Nibble) : (skipIf c s).readV x = s.readV x := by cases c <;> rfl

@[simp] theorem readStack_skipIf (c : Bool) (k : Nibble) : (skipIf c s).readStack k = s.readStack k := by cases c <;> rfl

/-- A skip changes PC alone (R120). -/
theorem skipIf_frame (c : Bool) : skipIf c s = { s with pc := (skipIf c s).pc } := by cases c <;> rfl

/-! ### writeIndexFlag: VF alone (R172) -/

@[simp] theorem writeIndexFlag_index (o : Bool) : (writeIndexFlag o s).index = s.index := by
  unfold writeIndexFlag; split <;> [rfl; (split <;> rfl)]
@[simp] theorem writeIndexFlag_pc (o : Bool) : (writeIndexFlag o s).pc = s.pc := by
  unfold writeIndexFlag; split <;> [rfl; (split <;> rfl)]
@[simp] theorem writeIndexFlag_stack (o : Bool) : (writeIndexFlag o s).stack = s.stack := by
  unfold writeIndexFlag; split <;> [rfl; (split <;> rfl)]
@[simp] theorem writeIndexFlag_sp (o : Bool) : (writeIndexFlag o s).sp = s.sp := by
  unfold writeIndexFlag; split <;> [rfl; (split <;> rfl)]
@[simp] theorem writeIndexFlag_dt (o : Bool) : (writeIndexFlag o s).dt = s.dt := by
  unfold writeIndexFlag; split <;> [rfl; (split <;> rfl)]
@[simp] theorem writeIndexFlag_st (o : Bool) : (writeIndexFlag o s).st = s.st := by
  unfold writeIndexFlag; split <;> [rfl; (split <;> rfl)]
@[simp] theorem writeIndexFlag_fb (o : Bool) : (writeIndexFlag o s).fb = s.fb := by
  unfold writeIndexFlag; split <;> [rfl; (split <;> rfl)]
@[simp] theorem writeIndexFlag_mem (o : Bool) : (writeIndexFlag o s).mem = s.mem := by
  unfold writeIndexFlag; split <;> [rfl; (split <;> rfl)]
@[simp] theorem writeIndexFlag_fault (o : Bool) : (writeIndexFlag o s).fault = s.fault := by
  unfold writeIndexFlag; split <;> [rfl; (split <;> rfl)]
@[simp] theorem writeIndexFlag_faultWord (o : Bool) : (writeIndexFlag o s).faultWord = s.faultWord := by
  unfold writeIndexFlag; split <;> [rfl; (split <;> rfl)]
@[simp] theorem writeIndexFlag_straps (o : Bool) : (writeIndexFlag o s).straps = s.straps := by
  unfold writeIndexFlag; split <;> [rfl; (split <;> rfl)]
@[simp] theorem writeIndexFlag_input (o : Bool) : (writeIndexFlag o s).input = s.input := by
  unfold writeIndexFlag; split <;> [rfl; (split <;> rfl)]
@[simp] theorem writeIndexFlag_schedule (o : Bool) : (writeIndexFlag o s).schedule = s.schedule := by
  unfold writeIndexFlag; split <;> [rfl; (split <;> rfl)]
@[simp] theorem writeIndexFlag_draws (o : Bool) : (writeIndexFlag o s).draws = s.draws := by
  unfold writeIndexFlag; split <;> [rfl; (split <;> rfl)]

@[simp] theorem readStack_writeIndexFlag (o : Bool) (k : Nibble) : (writeIndexFlag o s).readStack k = s.readStack k := by
  simp [State.readStack]

/-- VF after Fx1E, and the other registers (R172). -/
theorem readV_writeIndexFlag (o : Bool) (r : Nibble) :
    (writeIndexFlag o s).readV r =
      if r = 0xF#4 then (if o then 0x01#8 else if s.straps.fx1eClearsVf then 0x00#8 else s.readV 0xF#4) else s.readV r := by
  unfold writeIndexFlag
  by_cases hr : r = 0xF#4
  · subst hr
    cases o <;> simp
    split <;> simp_all
  · simp only [if_neg hr]
    split
    · simp [Ne.symm hr]
    · split
      · simp [Ne.symm hr]
      · rfl

/-- The flag of Fx1E changes VF alone. -/
theorem writeIndexFlag_frame (o : Bool) : writeIndexFlag o s = { s with v := (writeIndexFlag o s).v } := by
  unfold writeIndexFlag; split <;> [rfl; (split <;> rfl)]

/-! ### loadRegisters: the register file alone (R176) -/

@[simp] theorem loadRegisters_index (n : Nat) : (loadRegisters s n).index = s.index := by rw [loadRegisters_frame]
@[simp] theorem loadRegisters_pc (n : Nat) : (loadRegisters s n).pc = s.pc := by rw [loadRegisters_frame]
@[simp] theorem loadRegisters_stack (n : Nat) : (loadRegisters s n).stack = s.stack := by rw [loadRegisters_frame]
@[simp] theorem loadRegisters_sp (n : Nat) : (loadRegisters s n).sp = s.sp := by rw [loadRegisters_frame]
@[simp] theorem loadRegisters_dt (n : Nat) : (loadRegisters s n).dt = s.dt := by rw [loadRegisters_frame]
@[simp] theorem loadRegisters_st (n : Nat) : (loadRegisters s n).st = s.st := by rw [loadRegisters_frame]
@[simp] theorem loadRegisters_fb (n : Nat) : (loadRegisters s n).fb = s.fb := by rw [loadRegisters_frame]
@[simp] theorem loadRegisters_mem (n : Nat) : (loadRegisters s n).mem = s.mem := by rw [loadRegisters_frame]
@[simp] theorem loadRegisters_fault (n : Nat) : (loadRegisters s n).fault = s.fault := by rw [loadRegisters_frame]
@[simp] theorem loadRegisters_faultWord (n : Nat) : (loadRegisters s n).faultWord = s.faultWord := by rw [loadRegisters_frame]
@[simp] theorem loadRegisters_straps (n : Nat) : (loadRegisters s n).straps = s.straps := by rw [loadRegisters_frame]
@[simp] theorem loadRegisters_input (n : Nat) : (loadRegisters s n).input = s.input := by rw [loadRegisters_frame]
@[simp] theorem loadRegisters_schedule (n : Nat) : (loadRegisters s n).schedule = s.schedule := by rw [loadRegisters_frame]
@[simp] theorem loadRegisters_draws (n : Nat) : (loadRegisters s n).draws = s.draws := by rw [loadRegisters_frame]

@[simp] theorem readStack_loadRegisters (n : Nat) (k : Nibble) : (loadRegisters s n).readStack k = s.readStack k := by
  simp [State.readStack]

end Sys2Proof.Machine
end

