-- ==== Sys2Proof/Laws/Memory.lean ====
section
/-! SUPPORT. The laws of memory: a read after a write, stores of several bytes, and the canonical form kept by every operation. -/

namespace Sys2Proof.Machine

/-! ### The parameter FONT, which no write changes -/

@[simp] theorem write_font (m : Memory) (a : Nat) (b : Byte) : (Memory.write m a b).font = m.font := rfl

@[simp] theorem writeBytes_font (m : Memory) (a : Nat) (bytes : List Byte) : (Memory.writeBytes m a bytes).font = m.font := by
  induction bytes generalizing m a with
  | nil => rfl
  | cons b rest ih => rw [Memory.writeBytes, ih, write_font]

/-- A store is told by the cells alone. -/
theorem writeBytes_eq (m : Memory) (a : Nat) (bytes : List Byte) :
    Memory.writeBytes m a bytes = { m with cells := (Memory.writeBytes m a bytes).cells } := by
  conv_rhs => rw [← writeBytes_font m a bytes]

/-- Where nothing is listed the font stands at 0x050 .. 0x09F (R31). -/
theorem unlistedByte_font (font : Vector Byte 80) (k : Nat) (hk : k < 80) : unlistedByte font (0x050 + k) = font[k] := by
  have h : fontBase ≤ 0x050 + k ∧ 0x050 + k - fontBase < 80 := by simp only [fontBase]; omega
  rw [unlistedByte, dif_pos h]
  simp [fontBase]

/-- Where nothing is listed every byte outside the font is 0x00 (R37, R56). -/
theorem unlistedByte_outside (font : Vector Byte 80) {a : Nat} (h : a < 0x050 ∨ 0x0A0 ≤ a) : unlistedByte font a = 0x00#8 := by
  rw [unlistedByte, dif_neg (by simp only [fontBase]; omega)]

/-! ### One cell -/

theorem lookup_insert (m : List Host.Cell) (a : Nat) (b : Byte) (c : Nat) (u : Byte) :
    lookupCell (insertCell m a b) c u = (if a = c then b else lookupCell m c u) ∨ ∃ d ∈ m, d.1 = a := by
  induction m with
  | nil => by_cases h : a = c <;> simp [insertCell, lookupCell, h]
  | cons d rest ih =>
    obtain ⟨k, v⟩ := d
    by_cases hk : k = a
    · exact .inr ⟨(k, v), by simp, hk⟩
    · rcases ih with ih | ⟨d, hd, rfl⟩
      · left
        by_cases hak : a < k
        · simp [insertCell, lookupCell, hak]
        · simp only [insertCell, if_neg hak, lookupCell, ih]
          by_cases hkc : k = c
          · subst hkc; simp [Ne.symm hk]
          · simp [hkc]
      · exact .inr ⟨d, List.mem_cons_of_mem _ hd, rfl⟩

theorem lookup_filter (m : List Host.Cell) (a c : Nat) (u : Byte) :
    lookupCell (m.filter (fun d => d.1 != a)) c u = if a = c then u else lookupCell m c u := by
  induction m with
  | nil => simp [lookupCell]
  | cons d rest ih =>
    obtain ⟨k, v⟩ := d
    by_cases hk : k = a
    · subst hk
      by_cases hc : k = c
      · subst hc; simpa using ih
      · simpa [lookupCell, hc] using ih
    · by_cases hc : a = c
      · subst hc; simp [lookupCell, hk, ih]
      · simp [lookupCell, hk, hc, ih]

/-- A cell after a write to a cell: the value written where the addresses agree, else the old value. -/
theorem cell_setCell (m : Memory) (a : Nat) (b : Byte) (c : Nat) :
    Memory.cell (Memory.setCell m a b) c = if a = c then b else Memory.cell m c := by
  simp only [Memory.cell, Memory.setCell]
  split
  · rename_i hb
    rw [lookup_filter]
    by_cases h : a = c
    · subst h; simp [hb]
    · simp [h]
  · rcases lookup_insert (m.cells.filter (fun d => d.1 != a)) a b c (unlistedByte m.font c) with h | ⟨d, hd, rfl⟩
    · rw [h, lookup_filter]; by_cases hc : a = c <;> simp [hc]
    · simp at hd

/-! ### The primitives of R52 -/

/-- R52: a read returns the value of the latest write to that cell; the cell is the address modulo 4096 (R51). -/
theorem read_write (m : Memory) (a c : Nat) (b : Byte) :
    Memory.read (Memory.write m a b) c = if a % memSize = c % memSize then b else Memory.read m c := by
  simp [Memory.read, Memory.write, cell_setCell]

/-- R51: an address and the address 4096 above it name one cell. -/
theorem read_mod (m : Memory) (a : Nat) : Memory.read m (a % memSize) = Memory.read m a := by
  simp [Memory.read]

theorem read_congr (m : Memory) {a c : Nat} (h : a % memSize = c % memSize) : Memory.read m a = Memory.read m c := by
  simp [Memory.read, h]

/-- Where nothing is listed, memory reads as after reset (R37, R56). -/
theorem read_nil (font : Vector Byte 80) (a : Nat) :
    Memory.read { font := font, cells := [] } a = unlistedByte font (a % memSize) := rfl

/-! ### Stores of several bytes -/

/-- Bytes outside a store are unchanged. -/
theorem read_writeBytes_outside (m : Memory) (a c : Nat) (bytes : List Byte)
    (h : ∀ k < bytes.length, (a + k) % memSize ≠ c % memSize) :
    Memory.read (Memory.writeBytes m a bytes) c = Memory.read m c := by
  induction bytes generalizing m a with
  | nil => rfl
  | cons b rest ih =>
    have h0 : a % memSize ≠ c % memSize := by simpa using h 0 (by simp)
    rw [Memory.writeBytes, ih, read_write, if_neg h0]
    intro k hk
    have := h (k + 1) (by simpa using hk)
    rwa [show a + (k + 1) = a + 1 + k by omega] at this

/-- Byte `k` of a store reads back, as long as the store does not lap the memory. -/
theorem read_writeBytes_inside (m : Memory) (a : Nat) (bytes : List Byte) (hlen : bytes.length ≤ memSize)
    (k : Nat) (hk : k < bytes.length) : Memory.read (Memory.writeBytes m a bytes) (a + k) = bytes[k] := by
  induction bytes generalizing m a k with
  | nil => simp at hk
  | cons b rest ih =>
    have hlen' : rest.length + 1 ≤ memSize := by simpa using hlen
    rw [Memory.writeBytes]
    cases k with
    | zero =>
      rw [read_writeBytes_outside, read_write]
      · simp
      · intro j hj
        simp only [memSize] at *
        omega
    | succ k =>
      have hk' : k < rest.length := by simpa using hk
      rw [show a + (k + 1) = a + 1 + k by omega, ih _ _ (by omega) _ hk']
      simp

/-! ### The canonical form -/

theorem wf_nil (font : Vector Byte 80) : Memory.wf { font := font, cells := [] } := by simp [Memory.wf]

theorem mem_insert {m : List Host.Cell} {a : Nat} {b : Byte} {d : Host.Cell} (h : d ∈ insertCell m a b) :
    d = (a, b) ∨ d ∈ m := by
  induction m with
  | nil => simpa [insertCell] using h
  | cons e rest ih =>
    obtain ⟨k, v⟩ := e
    by_cases hak : a < k
    · simpa [insertCell, hak] using h
    · simp only [insertCell, if_neg hak, List.mem_cons] at h ⊢
      rcases h with h | h
      · exact .inr (.inl h)
      · rcases ih h with h | h
        · exact .inl h
        · exact .inr (.inr h)

theorem pairwise_insert {m : List Host.Cell} (h : m.Pairwise (fun c d => c.1 < d.1)) (a : Nat) (b : Byte)
    (hne : ∀ c ∈ m, c.1 ≠ a) : (insertCell m a b).Pairwise (fun c d => c.1 < d.1) := by
  induction m with
  | nil => simp [insertCell]
  | cons e rest ih =>
    obtain ⟨k, v⟩ := e
    rw [List.pairwise_cons] at h
    have hk : k ≠ a := hne (k, v) (by simp)
    by_cases hak : a < k
    · simp only [insertCell, if_pos hak, List.pairwise_cons]
      refine ⟨fun d hd => ?_, h⟩
      rcases List.mem_cons.mp hd with rfl | hd
      · exact hak
      · exact Nat.lt_trans hak (h.1 d hd)
    · simp only [insertCell, if_neg hak, List.pairwise_cons]
      refine ⟨fun d hd => ?_, ih h.2 (fun c hc => hne c (List.mem_cons_of_mem _ hc))⟩
      rcases mem_insert hd with rfl | hd
      · simp only; omega
      · exact h.1 d hd

theorem wf_setCell {m : Memory} (h : Memory.wf m) {a : Nat} (ha : a < memSize) (b : Byte) :
    Memory.wf (Memory.setCell m a b) := by
  simp only [Memory.wf, Memory.setCell]
  split
  · exact ⟨h.1.filter _, fun c hc => h.2 c (List.mem_of_mem_filter hc)⟩
  · rename_i hb
    refine ⟨pairwise_insert (h.1.filter _) a b (by simp), fun c hc => ?_⟩
    rcases mem_insert hc with rfl | hc
    · exact ⟨ha, hb⟩
    · exact h.2 c (List.mem_of_mem_filter hc)

/-- Every write keeps the canonical form. -/
theorem wf_write {m : Memory} (h : Memory.wf m) (a : Nat) (b : Byte) : Memory.wf (Memory.write m a b) :=
  wf_setCell h (Nat.mod_lt _ (by decide)) b

/-- Every store of several bytes keeps the canonical form. -/
theorem wf_writeBytes {m : Memory} (h : Memory.wf m) (a : Nat) (bytes : List Byte) :
    Memory.wf (Memory.writeBytes m a bytes) := by
  induction bytes generalizing m a with
  | nil => exact h
  | cons b rest ih => exact ih (wf_write h a b) (a + 1)

end Sys2Proof.Machine
end

