-- ==== Sys2Proof/Laws/PerInstr.lean ====
section
/-! SUPPORT. What is said of every instruction as syntax, one lemma for each constructor. The family `TableRow`: an instruction's word, masked as its row of
spec/30_encoding.md R75 says, is that row's match value. -/

namespace Sys2Proof.Laws.TableRow

/-- The mask and the match of an instruction's row in R75, written from the table and not from the encoder. -/
def row (i : Instr) : Word × Word :=
  match i with
  | .cls => (0xFFFF#16, 0x00E0#16)
  | .ret => (0xFFFF#16, 0x00EE#16)
  | .jp _ => (0xF000#16, 0x1000#16)
  | .call _ => (0xF000#16, 0x2000#16)
  | .seImm _ _ => (0xF000#16, 0x3000#16)
  | .sneImm _ _ => (0xF000#16, 0x4000#16)
  | .seReg _ _ => (0xF00F#16, 0x5000#16)
  | .ldImm _ _ => (0xF000#16, 0x6000#16)
  | .addImm _ _ => (0xF000#16, 0x7000#16)
  | .ldReg _ _ => (0xF00F#16, 0x8000#16)
  | .orReg _ _ => (0xF00F#16, 0x8001#16)
  | .andReg _ _ => (0xF00F#16, 0x8002#16)
  | .xorReg _ _ => (0xF00F#16, 0x8003#16)
  | .addReg _ _ => (0xF00F#16, 0x8004#16)
  | .subReg _ _ => (0xF00F#16, 0x8005#16)
  | .shr _ _ => (0xF00F#16, 0x8006#16)
  | .subn _ _ => (0xF00F#16, 0x8007#16)
  | .shl _ _ => (0xF00F#16, 0x800E#16)
  | .sneReg _ _ => (0xF00F#16, 0x9000#16)
  | .ldI _ => (0xF000#16, 0xA000#16)
  | .jpV0 _ => (0xF000#16, 0xB000#16)
  | .rnd _ _ => (0xF000#16, 0xC000#16)
  | .drw _ _ _ => (0xF000#16, 0xD000#16)
  | .skp _ => (0xF0FF#16, 0xE09E#16)
  | .sknp _ => (0xF0FF#16, 0xE0A1#16)
  | .ldVxDt _ => (0xF0FF#16, 0xF007#16)
  | .ldVxKey _ => (0xF0FF#16, 0xF00A#16)
  | .ldDtVx _ => (0xF0FF#16, 0xF015#16)
  | .ldStVx _ => (0xF0FF#16, 0xF018#16)
  | .addI _ => (0xF0FF#16, 0xF01E#16)
  | .ldF _ => (0xF0FF#16, 0xF029#16)
  | .ldB _ => (0xF0FF#16, 0xF033#16)
  | .storeRegs _ => (0xF0FF#16, 0xF055#16)
  | .loadRegs _ => (0xF0FF#16, 0xF065#16)

/-- A word belongs to the row of its instruction (R75). -/
def Statement (i : Instr) : Prop := encode i &&& (row i).1 = (row i).2

/-! ### The fixed bits of each format -/

theorem nnn_row (f : Nibble) (nnn : Addr12) : packNNN f nnn &&& 0xF000#16 = f.setWidth 16 <<< 12 := by
  ext i h; interval_cases i <;> simp [packNNN]

theorem xnn_row (f x : Nibble) (nn : Byte) : packXNN f x nn &&& 0xF000#16 = f.setWidth 16 <<< 12 := by
  ext i h; interval_cases i <;> simp [packXNN]

theorem xkk_row (f x : Nibble) (nn : Byte) :
    packXNN f x nn &&& 0xF0FF#16 = f.setWidth 16 <<< 12 ||| nn.setWidth 16 := by
  ext i h; interval_cases i <;> simp [packXNN]

theorem xy_row (f x y n : Nibble) : packXYN f x y n &&& 0xF00F#16 = f.setWidth 16 <<< 12 ||| n.setWidth 16 := by
  ext i h; interval_cases i <;> simp [packXYN]

theorem xyn_row (f x y n : Nibble) : packXYN f x y n &&& 0xF000#16 = f.setWidth 16 <<< 12 := by
  ext i h; interval_cases i <;> simp [packXYN]

/-! ### One lemma for each constructor -/

theorem cls : Statement .cls := rfl
theorem ret : Statement .ret := rfl
theorem jp (nnn : Addr12) : Statement (.jp nnn) := (nnn_row _ _).trans rfl
theorem call (nnn : Addr12) : Statement (.call nnn) := (nnn_row _ _).trans rfl
theorem seImm (x : Nibble) (nn : Byte) : Statement (.seImm x nn) := (xnn_row _ _ _).trans rfl
theorem sneImm (x : Nibble) (nn : Byte) : Statement (.sneImm x nn) := (xnn_row _ _ _).trans rfl
theorem seReg (x y : Nibble) : Statement (.seReg x y) := (xy_row _ _ _ _).trans rfl
theorem ldImm (x : Nibble) (nn : Byte) : Statement (.ldImm x nn) := (xnn_row _ _ _).trans rfl
theorem addImm (x : Nibble) (nn : Byte) : Statement (.addImm x nn) := (xnn_row _ _ _).trans rfl
theorem ldReg (x y : Nibble) : Statement (.ldReg x y) := (xy_row _ _ _ _).trans rfl
theorem orReg (x y : Nibble) : Statement (.orReg x y) := (xy_row _ _ _ _).trans rfl
theorem andReg (x y : Nibble) : Statement (.andReg x y) := (xy_row _ _ _ _).trans rfl
theorem xorReg (x y : Nibble) : Statement (.xorReg x y) := (xy_row _ _ _ _).trans rfl
theorem addReg (x y : Nibble) : Statement (.addReg x y) := (xy_row _ _ _ _).trans rfl
theorem subReg (x y : Nibble) : Statement (.subReg x y) := (xy_row _ _ _ _).trans rfl
theorem shr (x y : Nibble) : Statement (.shr x y) := (xy_row _ _ _ _).trans rfl
theorem subn (x y : Nibble) : Statement (.subn x y) := (xy_row _ _ _ _).trans rfl
theorem shl (x y : Nibble) : Statement (.shl x y) := (xy_row _ _ _ _).trans rfl
theorem sneReg (x y : Nibble) : Statement (.sneReg x y) := (xy_row _ _ _ _).trans rfl
theorem ldI (nnn : Addr12) : Statement (.ldI nnn) := (nnn_row _ _).trans rfl
theorem jpV0 (nnn : Addr12) : Statement (.jpV0 nnn) := (nnn_row _ _).trans rfl
theorem rnd (x : Nibble) (nn : Byte) : Statement (.rnd x nn) := (xnn_row _ _ _).trans rfl
theorem drw (x y n : Nibble) : Statement (.drw x y n) := (xyn_row _ _ _ _).trans rfl
theorem skp (x : Nibble) : Statement (.skp x) := (xkk_row _ _ _).trans rfl
theorem sknp (x : Nibble) : Statement (.sknp x) := (xkk_row _ _ _).trans rfl
theorem ldVxDt (x : Nibble) : Statement (.ldVxDt x) := (xkk_row _ _ _).trans rfl
theorem ldVxKey (x : Nibble) : Statement (.ldVxKey x) := (xkk_row _ _ _).trans rfl
theorem ldDtVx (x : Nibble) : Statement (.ldDtVx x) := (xkk_row _ _ _).trans rfl
theorem ldStVx (x : Nibble) : Statement (.ldStVx x) := (xkk_row _ _ _).trans rfl
theorem addI (x : Nibble) : Statement (.addI x) := (xkk_row _ _ _).trans rfl
theorem ldF (x : Nibble) : Statement (.ldF x) := (xkk_row _ _ _).trans rfl
theorem ldB (x : Nibble) : Statement (.ldB x) := (xkk_row _ _ _).trans rfl
theorem storeRegs (x : Nibble) : Statement (.storeRegs x) := (xkk_row _ _ _).trans rfl
theorem loadRegs (x : Nibble) : Statement (.loadRegs x) := (xkk_row _ _ _).trans rfl

end Sys2Proof.Laws.TableRow
end

