-- ==== Sys2Proof/Laws/Step.lean ====
section
/-! SUPPORT. What a step and the meanings that branch can do, said once: inversion lemmas that the proofs cite instead of unfolding. -/

namespace Sys2Proof.Machine

/-! ### The step -/

theorem onNext_eq_next {f : State → State} {r : Result} {t : State} :
    onNext f r = .next t ↔ ∃ u, r = .next u ∧ t = f u := by
  cases r with
  | next u =>
    simp only [onNext, Host.Outcome.next.injEq]
    exact ⟨fun h => ⟨u, rfl, h.symm⟩, fun ⟨v, hv, ht⟩ => by rw [ht, hv]⟩
  | fault e => simp [onNext]
  | refused e => simp [onNext]

@[simp] theorem onNext_next (f : State → State) (s : State) : onNext f (.next s) = .next (f s) := rfl

/-- R101: a step of a halted core. -/
theorem step_halted {s : State} (h : s.fault ≠ .none) : step s = .next s := by
  simp [step, cycle, h]

/-- R108: a step of a core that runs. -/
theorem step_running {s : State} (h : s.fault = .none) :
    step s = onNext presentNextInput (decodeAndExecute (fetch s) (beginStep s)) := by
  simp [step, cycle, h]

theorem decodeAndExecute_ok {w : Word} {i : Instr} (h : decode w = .ok i) (s : State) :
    decodeAndExecute w s = exec i s := by
  simp [decodeAndExecute, h]

theorem decodeAndExecute_error {w : Word} {e : DecodeError} (h : decode w = .error e) (s : State) :
    decodeAndExecute w s = .next (raise .unknownInstruction w s) := by
  simp [decodeAndExecute, h]

/-- Everything a step that answers can have done: nothing, if the core is halted; or an illegal word was latched; or the decoded instruction ran. -/
theorem step_cases {s t : State} (h : step s = .next t) :
    (s.fault ≠ .none ∧ t = s) ∨
    (s.fault = .none ∧ (∃ e, decode (fetch s) = .error e) ∧
      t = presentNextInput (raise .unknownInstruction (fetch s) (beginStep s))) ∨
    (s.fault = .none ∧ ∃ i u, decode (fetch s) = .ok i ∧ exec i (beginStep s) = .next u ∧ t = presentNextInput u) := by
  by_cases hf : s.fault = .none
  · rw [step_running hf, onNext_eq_next] at h
    obtain ⟨u, hu, rfl⟩ := h
    cases hd : decode (fetch s) with
    | error e =>
      rw [decodeAndExecute_error hd] at hu
      cases hu
      exact .inr (.inl ⟨hf, ⟨e, rfl⟩, rfl⟩)
    | ok i =>
      rw [decodeAndExecute_ok hd] at hu
      exact .inr (.inr ⟨hf, i, u, rfl, hu, rfl⟩)
  · rw [step_halted hf] at h
    cases h
    exact .inl ⟨hf, rfl⟩

/-- A run goes on from the state its first step answers. -/
theorem run_succ {s t : State} (h : step s = .next t) (k : Nat) : core.run (k + 1) s = core.run k t := by
  simp only [Host.Core.run, core, h]

/-! ### The meanings that branch -/

/-- Everything RET that answers can have done (R121). -/
theorem execRet_cases {s t : State} (h : execRet s = .next t) :
    (s.sp.toNat = 0 ∧ t = raise .stackUnderflow (encode .ret) s) ∨
    (0 < s.sp.toNat ∧ s.sp.toNat ≤ stackDepth ∧ t = s.popStack) := by
  unfold execRet at h
  split at h
  · rename_i h0; cases h; exact .inl ⟨h0, rfl⟩
  · split at h
    · rename_i h0 h1; cases h; exact .inr ⟨by omega, h1, rfl⟩
    · cases h

/-- Everything CALL that answers can have done (R123). -/
theorem execCall_cases {nnn : Addr12} {s t : State} (h : execCall nnn s = .next t) :
    (s.sp.toNat = stackDepth ∧ t = raise .stackOverflow (encode (.call nnn)) s) ∨
    (s.sp.toNat < stackDepth ∧ t = (s.pushStack s.pc).writePc (addressOperand nnn)) := by
  unfold execCall at h
  split at h
  · rename_i h0; cases h; exact .inl ⟨h0, rfl⟩
  · split at h
    · rename_i h0 h1; cases h; exact .inr ⟨h1, rfl⟩
    · cases h

/-! ### The instructions that answer everywhere -/

/-- Every instruction but CALL and RET answers a next state from every state. -/
theorem exec_answers (i : Instr) (s : State) (hr : i ≠ .ret) (hc : ∀ nnn, i ≠ .call nnn) : ∃ t, exec i s = .next t := by
  cases i with
  | ret => exact absurd rfl hr
  | call nnn => exact absurd rfl (hc nnn)
  | _ => exact ⟨_, rfl⟩

/-- CALL and RET answer a next state while SP is at most 16. -/
theorem exec_answers_of_sp (i : Instr) (s : State) (h : s.sp.toNat ≤ stackDepth) : ∃ t, exec i s = .next t := by
  by_cases hr : i = .ret
  · subst hr
    simp only [exec, execRet]
    split
    · exact ⟨_, rfl⟩
    · exact ⟨_, rfl⟩
  · by_cases hc : ∃ nnn, i = .call nnn
    · obtain ⟨nnn, rfl⟩ := hc
      simp only [exec, execCall]
      split
      · exact ⟨_, rfl⟩
      · rw [if_pos (by omega)]; exact ⟨_, rfl⟩
    · exact exec_answers i s hr (fun nnn h => hc ⟨nnn, h⟩)

/-! ### What a store changes -/

/-- A store changes the listed cells and nothing else (R55). -/
theorem writeMem_writeBytes_frame (s : State) (a : Nat) (bytes : List Byte) :
    s.writeMem (Memory.writeBytes s.mem a bytes) = { s with mem.cells := (Memory.writeBytes s.mem a bytes).cells } := by
  rw [State.writeMem, ← writeBytes_eq]

end Sys2Proof.Machine
end

