-- ==== Sys2Proof/Tests/Slice0.lean ====
section
/-! SUPPORT. Tests, each with the vector of spec/95_test_vectors.md its expected result comes from, and for every statement with hypotheses a witness that meets them. -/

namespace Sys2Proof.Tests

open Sys2Proof.Machine Sys2Proof.Spec

/-! ## States to test on -/

/-- The reset state with every strap false, the default font and zero inputs: the convention of spec/95_test_vectors.md. -/
def start : State :=
  { State.reset with
    straps := ⟨false, false, false, false, false⟩
    mem := { font := defaultFont, cells := [] }
    input := ⟨0x0000, 0, 0x00⟩ }

/-- The same with every strap true. -/
def startStrapped : State := { start with straps := ⟨true, true, true, true, true⟩ }

/-- Set some registers. -/
def withV (s : State) (l : List (Nibble × Byte)) : State := l.foldl (fun u p => u.writeV p.1 p.2) s

/-- Put bytes in memory from `a`, and point I there. -/
def atIndex (s : State) (a : Word) (bytes : List Byte) : State :=
  (s.writeMem (Memory.writeBytes s.mem a.toNat bytes)).writeIndex a

/-- The next step's inputs. -/
def withInput (s : State) (keys : BitVec 16) (ticks : Nat) (rnd : Byte) : State :=
  { s with input := ⟨keys, ticks, rnd⟩ }

/-- Place the word `w` at PC, step once, and look at the next state. -/
def afterStep (w : Nat) (s : State) (p : State → Bool) : Bool :=
  match step (s.withFetchWord 16 w) with
  | .next t => p t
  | .fault _ => false
  | .refused _ => false

/-- The registers VF and `V[x]`. -/
def regs (t : State) (x : Nibble) : Byte × Byte := (t.readV x, t.readV 15)

/-! ## Well-formedness: every value of every field is legal (R20, R73), so the one check is the image's length -/

/-- T-RST-2. -/
theorem test_image_of_3584_bytes_is_accepted : imageWellFormed (List.replicate 3584 0#8) = true := by
  simp only [imageWellFormed, List.length_replicate]; decide

/-- T-RST-3. -/
theorem test_image_of_3585_bytes_is_refused : imageWellFormed (List.replicate 3585 0#8) = false := by
  simp only [imageWellFormed, List.length_replicate]; decide

theorem test_extreme_fields_are_well_formed : Instr.wellFormed (.drw 15 15 15) = true ∧ Instr.wellFormed (.jp 0xFFF) = true := by decide

/-! ## Decoding: the words of section 2.7, written out there from the spec's encodings -/

theorem test_decode_control :
    decodeTableWord 16 0x00EE = some .ret ∧ decodeTableWord 16 0x1234 = some (.jp 0x234) ∧
    decodeTableWord 16 0x2FFE = some (.call 0xFFE) ∧ decodeTableWord 16 0x3A7F = some (.seImm 10 0x7F) ∧
    decodeTableWord 16 0x4007 = some (.sneImm 0 7) ∧ decodeTableWord 16 0x5AB0 = some (.seReg 10 11) ∧
    decodeTableWord 16 0x9F00 = some (.sneReg 15 0) ∧ decodeTableWord 16 0xB2FF = some (.jpV0 0x2FF) := by decide

theorem test_decode_immediate_index_display :
    decodeTableWord 16 0x6C00 = some (.ldImm 12 0) ∧ decodeTableWord 16 0x7EFF = some (.addImm 14 0xFF) ∧
    decodeTableWord 16 0xA000 = some (.ldI 0) ∧ decodeTableWord 16 0xC1AA = some (.rnd 1 0xAA) ∧
    decodeTableWord 16 0xDABF = some (.drw 10 11 15) ∧ decodeTableWord 16 0x00E0 = some .cls := by decide

theorem test_decode_alu :
    decodeTableWord 16 0x8AB0 = some (.ldReg 10 11) ∧ decodeTableWord 16 0x8AB1 = some (.orReg 10 11) ∧
    decodeTableWord 16 0x8AB2 = some (.andReg 10 11) ∧ decodeTableWord 16 0x8AB3 = some (.xorReg 10 11) ∧
    decodeTableWord 16 0x8AB4 = some (.addReg 10 11) ∧ decodeTableWord 16 0x8AB5 = some (.subReg 10 11) ∧
    decodeTableWord 16 0x8AB6 = some (.shr 10 11) ∧ decodeTableWord 16 0x8AB7 = some (.subn 10 11) ∧
    decodeTableWord 16 0x8ABE = some (.shl 10 11) := by decide

theorem test_decode_families_E_and_F :
    decodeTableWord 16 0xE19E = some (.skp 1) ∧ decodeTableWord 16 0xEFA1 = some (.sknp 15) ∧
    decodeTableWord 16 0xF007 = some (.ldVxDt 0) ∧ decodeTableWord 16 0xF10A = some (.ldVxKey 1) ∧
    decodeTableWord 16 0xF215 = some (.ldDtVx 2) ∧ decodeTableWord 16 0xF318 = some (.ldStVx 3) ∧
    decodeTableWord 16 0xF41E = some (.addI 4) ∧ decodeTableWord 16 0xF529 = some (.ldF 5) ∧
    decodeTableWord 16 0xF633 = some (.ldB 6) ∧ decodeTableWord 16 0xF755 = some (.storeRegs 7) ∧
    decodeTableWord 16 0xF865 = some (.loadRegs 8) := by decide

/-- T-DEC-1 to T-DEC-7: each illegal word is refused by the name of its family. -/
theorem test_decode_refuses_by_name :
    decode 0x0000 = .error .family0 ∧ decode 0x01E0 = .error .family0 ∧ decode 0x00EF = .error .family0 ∧
    decode 0x5001 = .error .family5 ∧ decode 0x9ABF = .error .family9 ∧ decode 0x8008 = .error .family8 ∧
    decode 0x800F = .error .family8 ∧ decode 0xE19D = .error .familyE ∧ decode 0xF1FF = .error .familyF ∧
    decode 0xF085 = .error .familyF ∧ decodeBytes [0x12] = .error .truncated := by decide

/-- R53: two bytes, the first the high one, and the rest of the stream is given back. -/
theorem test_decode_takes_two_bytes : decodeBytes [0xA3, 0x00, 0x22] = .ok (.ldI 0x300, [0x22]) := by decide

/-! ## Control transfer -/

/-- T-CF-1. -/
theorem test_ret_pops_the_top : afterStep 0x00EE { start with sp := 2, stack := (start.stack.set 0 0x0206).set 1 0x1234 }
    (fun t => t.sp == 1 && t.pc == 0x1234 && t.readStack 1 == 0x1234) = true := by decide

/-- T-FLT-2, T-CF-2. -/
theorem test_ret_underflows : afterStep 0x00EE (withInput { start with pc := 0x0300, dt := 2 } 0 5 0)
    (fun t => faultOutput t == 3 && faultWordOutput t == 0x00EE && t.pc == 0x0302 && t.dt == 0 && t.sp == 0) = true := by decide

/-- T-CF-3. -/
theorem test_jp_odd_target : afterStep 0x1FFF start (fun t => t.pc == 0x0FFF) = true := by decide

/-- T-CF-6. -/
theorem test_call_pushes_the_advanced_pc : afterStep 0x2ABC { start with pc := 0xFFFE }
    (fun t => t.readStack 0 == 0x0000 && t.sp == 1 && t.pc == 0x0ABC) = true := by decide

/-- T-CF-7. -/
theorem test_call_overflows : afterStep 0x2300 { start with pc := 0x0300, sp := 16, stack := start.stack.set 15 0xBEEF }
    (fun t => faultOutput t == 2 && faultWordOutput t == 0x2300 && t.pc == 0x0302 && t.sp == 16 && t.readStack 15 == 0xBEEF) = true := by decide

/-- T-CF-8, T-CF-10. -/
theorem test_se_imm : afterStep 0x3F01 (withV start [(15, 1)]) (fun t => t.pc == 0x0204) = true ∧
    afterStep 0x3000 { start with pc := 0xFFFC } (fun t => t.pc == 0x0000) = true := by decide

/-- T-CF-9. -/
theorem test_sne_imm : afterStep 0x4F01 (withV start [(15, 1)]) (fun t => t.pc == 0x0202) = true := by decide

/-- T-CF-11, T-CF-13. -/
theorem test_se_reg : afterStep 0x5AA0 (withV start [(10, 0x33)]) (fun t => t.pc == 0x0204) = true ∧
    afterStep 0x5120 (withV start [(1, 9), (2, 8)]) (fun t => t.pc == 0x0202) = true := by decide

/-- T-CF-12, and the example of R127. -/
theorem test_sne_reg : afterStep 0x9AA0 (withV start [(10, 0x33)]) (fun t => t.pc == 0x0202) = true ∧
    afterStep 0x9120 (withV start [(1, 9), (2, 8)]) (fun t => t.pc == 0x0204) = true := by decide

/-- T-CF-14, T-CF-15. -/
theorem test_jp_v0 : afterStep 0xBFFF (withV start [(0, 1), (15, 0xFF)]) (fun t => t.pc == 0x1000) = true ∧
    afterStep 0xBFFF (withV startStrapped [(0, 1), (15, 0xFF)]) (fun t => t.pc == 0x10FE) = true := by decide

/-! ## Immediates and random -/

/-- T-IMM-1. -/
theorem test_ld_imm : afterStep 0x6FAB start (fun t => t.readV 15 == 0xAB) = true := by decide

/-- T-IMM-2, T-IMM-4. -/
theorem test_add_imm : afterStep 0x7F01 (withV start [(15, 0xFF)]) (fun t => t.readV 15 == 0) = true ∧
    afterStep 0x7280 (withV start [(2, 0x80), (15, 1)]) (fun t => regs t 2 == (0, 1)) = true := by decide

/-- T-IMM-7. -/
theorem test_rnd : afterStep 0xCF3C (withInput start 0 0 0xA5) (fun t => t.readV 15 == 0x24) = true := by decide

/-! ## The ALU -/

/-- T-ALU-1. -/
theorem test_ld_reg : afterStep 0x8FA0 (withV start [(10, 0x99)]) (fun t => regs t 10 == (0x99, 0x99)) = true := by decide

/-- R153, T-ALU-2. -/
theorem test_or : afterStep 0x8121 (withV start [(1, 0xF0), (2, 0x0C), (15, 7)]) (fun t => regs t 1 == (0xFC, 7)) = true := by decide

/-- R154, T-ALU-3. -/
theorem test_and : afterStep 0x8122 (withV start [(1, 0xF5), (2, 0x3C), (15, 7)]) (fun t => regs t 1 == (0x34, 7)) = true := by decide

/-- R155, T-ALU-4. -/
theorem test_xor : afterStep 0x8123 (withV start [(1, 0xFF), (2, 0x0F), (15, 7)]) (fun t => regs t 1 == (0xF0, 7)) = true := by decide

/-- S2. -/
theorem test_add_carries : afterStep 0x8014 (withV start [(0, 0xFF), (1, 1)]) (fun t => regs t 0 == (0, 1)) = true ∧
    afterStep 0x8014 (withV start [(0, 1), (1, 1), (15, 1)]) (fun t => regs t 0 == (2, 0)) = true := by decide

/-- T-ALU-11, T-ALU-12. -/
theorem test_add_with_vf : afterStep 0x8F04 (withV start [(15, 0xFF), (0, 1)]) (fun t => regs t 0 == (1, 1)) = true ∧
    afterStep 0x80F4 (withV start [(0, 0xFF), (15, 1)]) (fun t => regs t 0 == (0, 1)) = true := by decide

/-- S3. -/
theorem test_sub : afterStep 0x8015 (withV start [(0, 5), (1, 3)]) (fun t => regs t 0 == (2, 1)) = true ∧
    afterStep 0x8015 (withV start [(0, 3), (1, 5), (15, 1)]) (fun t => regs t 0 == (0xFE, 0)) = true := by decide

/-- T-ALU-13, T-ALU-15. -/
theorem test_sub_corners : afterStep 0x8125 (withV start [(1, 7), (2, 7)]) (fun t => regs t 1 == (0, 1)) = true ∧
    afterStep 0x8F15 (withV start [(15, 3), (1, 5)]) (fun t => t.readV 15 == 0) = true := by decide

/-- S4 with the strap clear, T-ALU-24. -/
theorem test_shr : afterStep 0x8016 (withV start [(1, 3)]) (fun t => regs t 0 == (0, 0)) = true ∧
    afterStep 0x8F16 (withV start [(15, 2)]) (fun t => t.readV 15 == 0) = true := by decide

/-- S4 with the strap set, T-ALU-26. -/
theorem test_shr_strapped : afterStep 0x8016 (withV startStrapped [(1, 3)]) (fun t => regs t 0 == (1, 1) && t.readV 1 == 3) = true ∧
    afterStep 0x81F6 (withV startStrapped [(1, 0xFE), (15, 1)]) (fun t => regs t 1 == (0, 1)) = true := by decide

/-- T-ALU-19, T-ALU-20. -/
theorem test_subn : afterStep 0x8127 (withV start [(1, 0xFF)]) (fun t => regs t 1 == (1, 0)) = true ∧
    afterStep 0x8F17 (withV start [(15, 3), (1, 5)]) (fun t => t.readV 15 == 1) = true := by decide

/-- T-ALU-27, T-ALU-28. -/
theorem test_shl : afterStep 0x812E (withV start [(1, 0xFF), (2, 0x40)]) (fun t => regs t 1 == (0xFE, 1)) = true ∧
    afterStep 0x812E (withV startStrapped [(1, 0xFF), (2, 0x40)]) (fun t => regs t 1 == (0x80, 0)) = true := by decide

/-! ## The index register and memory -/

/-- T-IDX-1. -/
theorem test_ld_i : afterStep 0xAFFF start (fun t => t.index == 0x0FFF) = true := by decide

/-- T-IDX-4, T-IDX-6. -/
theorem test_add_i : afterStep 0xF11E (withV { start with index := 0xFFFF } [(1, 1)]) (fun t => t.index == 0 && t.readV 15 == 1) = true ∧
    afterStep 0xF11E (withV { start with index := 0xFF00 } [(1, 0xFF), (15, 9)]) (fun t => t.index == 0xFFFF && t.readV 15 == 9) = true := by decide

/-- T-IDX-7, T-IDX-9. -/
theorem test_add_i_clears_vf :
    afterStep 0xF11E (withV { startStrapped with index := 0xFF00 } [(1, 0xFF), (15, 9)]) (fun t => t.index == 0xFFFF && t.readV 15 == 0) = true ∧
    afterStep 0xFF1E (withV { startStrapped with index := 0x0100 } [(15, 1)]) (fun t => t.index == 0x0101 && t.readV 15 == 0) = true := by decide

/-- T-IDX-11, T-IDX-12. -/
theorem test_ld_f : afterStep 0xF029 (withV start [(0, 0xFF)]) (fun t => t.index == 0x054B) = true ∧
    afterStep 0xF329 (withV start [(3, 0x1A)]) (fun t => t.index == 0x00D2) = true := by decide

/-- T-IDX-13a, T-IDX-13b. -/
theorem test_ld_b : afterStep 0xF533 (withV { start with index := 0x0FFE } [(5, 0xFF)])
      (fun t => Memory.read t.mem 0xFFE == 2 && Memory.read t.mem 0xFFF == 5 && Memory.read t.mem 0 == 5 && t.index == 0x0FFE) = true ∧
    afterStep 0xF533 (withV { start with index := 0x1300 } [(5, 109)])
      (fun t => Memory.read t.mem 0x300 == 1 && Memory.read t.mem 0x301 == 0 && Memory.read t.mem 0x302 == 9) = true := by decide

/-- T-IDX-16. -/
theorem test_store_one : afterStep 0xF055 (withV { start with index := 0x0400 } [(0, 0xAB), (1, 0xCD)])
    (fun t => Memory.read t.mem 0x400 == 0xAB && Memory.read t.mem 0x401 == 0 && t.index == 0x0400) = true := by decide

/-- T-IDX-17a. -/
theorem test_store_wraps : afterStep 0xF355 (withV { startStrapped with index := 0xFFFE } [(0, 1), (1, 2), (2, 3), (3, 4)])
    (fun t => Memory.read t.mem 0xFFE == 1 && Memory.read t.mem 0xFFF == 2 && Memory.read t.mem 0 == 3 && Memory.read t.mem 1 == 4 &&
      t.index == 0x0002) = true := by decide

/-- T-IDX-19 (the default font). -/
theorem test_load_font : afterStep 0xFF65 { startStrapped with index := 0x0050 }
    (fun t => t.v.toList == [0xF0, 0x90, 0x90, 0x90, 0xF0, 0x20, 0x60, 0x20, 0x20, 0x70, 0xF0, 0x10, 0xF0, 0x80, 0xF0, 0xF0] &&
      t.index == 0x0060) = true := by decide

/-- T-IDX-21. -/
theorem test_load_wraps : afterStep 0xF165 (atIndex start 0x0FFF [0xAA, 0xBB])
    (fun t => t.readV 0 == 0xAA && t.readV 1 == 0xBB && t.index == 0x0FFF) = true := by decide

/-! ## The framebuffer -/

/-- T-DRW-13. -/
theorem test_cls : afterStep 0x00E0 (withV { start with fb := start.fb.set 31 (BitVec.twoPow 64 63) } [(15, 1)])
    (fun t => t.fb.toList.all (fun row => row == 0) && t.readV 15 == 1) = true := by decide

/-- T-DRW-6: row 0 goes from columns 1 and 2 to columns 0 and 2. -/
theorem test_drw_collides : afterStep 0xD011 { atIndex start 0x0300 [0xC0] with fb := start.fb.set 0 0b0110 }
    (fun t => t.fb[0] == 0b0101 && t.readV 15 == 1) = true := by decide

/-- T-DRW-3 and T-DRW-11: the corner pixel, and two clipped rows whose bytes are read around the end of memory. -/
theorem test_drw_clips : afterStep 0xD011 (withV (atIndex start 0x0300 [0xFF]) [(0, 0xFF), (1, 0xFF)])
      (fun t => t.fb[31] == BitVec.twoPow 64 63 && t.fb[0] == 0 && t.readV 15 == 0) = true ∧
    afterStep 0xD012 (withV (atIndex start 0x0FFF [0xFF, 0x40]) [(0, 0x3E), (1, 0)])
      (fun t => t.fb[0] == 0xC000000000000000 && t.fb[1] == 0x8000000000000000 && t.readV 15 == 0) = true := by decide

/-! ## The keypad and the timers -/

/-- T-KEY-1, T-KEY-2. -/
theorem test_skp : afterStep 0xE09E (withInput (withV start [(0, 0x1F)]) 0x8000 0 0) (fun t => t.pc == 0x0204) = true ∧
    afterStep 0xE09E (withInput (withV start [(0, 0x1F)]) 0x7FFF 0 0) (fun t => t.pc == 0x0202) = true := by decide

/-- T-KEY-3, T-KEY-4. -/
theorem test_sknp : afterStep 0xE0A1 (withInput (withV start [(0, 0xF0)]) 0x0001 0 0) (fun t => t.pc == 0x0202) = true ∧
    afterStep 0xE0A1 (withInput (withV start [(0, 0xF0)]) 0xFFFE 0 0) (fun t => t.pc == 0x0204) = true := by decide

/-- The example of R212, T-KEY-5. -/
theorem test_ld_key : afterStep 0xF00A (withInput start 0x0090 0 0) (fun t => t.readV 0 == 4 && t.pc == 0x0202) = true ∧
    afterStep 0xFF0A (withInput (withV start [(15, 3)]) 0x8000 0 0) (fun t => t.readV 15 == 15 && t.pc == 0x0202) = true := by decide

/-- T-KEY-7. -/
theorem test_ld_key_waits : afterStep 0xF30A (withInput (withV { start with pc := 0xFFFE, dt := 3, st := 1 } [(3, 9)]) 0 2 0)
    (fun t => t.pc == 0xFFFE && t.readV 3 == 9 && t.dt == 1 && t.st == 0) = true := by decide

/-- The example of R213, T-TMR-4. -/
theorem test_ld_dt : afterStep 0xF107 (withInput { start with dt := 4 } 0 3 0) (fun t => t.readV 1 == 1 && t.dt == 1) = true ∧
    afterStep 0xF107 (withInput { start with dt := 255 } 0 1000 0) (fun t => t.readV 1 == 0 && t.dt == 0) = true := by decide

/-- T-TMR-5. -/
theorem test_set_dt : afterStep 0xF015 (withInput (withV { start with dt := 3 } [(0, 0xFF)]) 0 1 0) (fun t => t.dt == 255) = true := by decide

/-- T-TMR-7, T-TMR-8. -/
theorem test_set_st : afterStep 0xF018 (withInput (withV start [(0, 1)]) 0 5 0) (fun t => t.st == 1 && soundActive t) = true ∧
    afterStep 0xF018 (withInput { start with st := 9 } 0 1 0) (fun t => t.st == 0 && !soundActive t) = true := by decide

/-! ## Faults and the step -/

/-- T-FLT-1. -/
theorem test_illegal_word : afterStep 0x5001 (withInput (withV { start with dt := 4, st := 4 } [(0, 1)]) 0 1 0)
    (fun t => faultOutput t == 1 && faultWordOutput t == 0x5001 && t.pc == 0x0202 && t.dt == 3 && t.st == 3 && t.readV 0 == 1) = true := by decide

/-- T-DEC-8. -/
theorem test_illegal_word_at_the_top : afterStep 0xFFFF { start with pc := 0xFFFE }
    (fun t => faultOutput t == 1 && faultWordOutput t == 0xFFFF && t.pc == 0x0000) = true := by decide

/-- T-IDX-22: the next fetch sees the bytes just stored. -/
theorem test_store_is_fetched : afterStep 0xF355 (withV { start with index := 0x0202 } [(0, 0x12), (1, 0x08), (2, 3), (3, 4)])
    (fun t => fetch t == 0x1208) = true := by decide

/-- R272: with no program the first step meets the word 0x0000. -/
theorem test_empty_program_faults : (match step State.reset with | .next t => faultOutput t == 1 && faultWordOutput t == 0 | _ => false) = true := by decide

/-- T-RST-1: reset with the default font and the program 12 00. -/
theorem test_reset_with_program : (match resetWithImage defaultFont [0x12, 0x00] with
    | some s => s.pc == 0x0200 && fetch s == 0x1200 && Memory.read s.mem 0x050 == 0xF0 && Memory.read s.mem 0x051 == 0x90 &&
        Memory.read s.mem 0x09F == 0x80 && Memory.read s.mem 0x04F == 0 && Memory.read s.mem 0x0A0 == 0 && Memory.read s.mem 0x202 == 0
    | none => false) = true := by decide

/-- R32, R142: Cxnn as the first instruction after reset writes the host's random byte, whatever it is. -/
theorem test_first_random_byte_is_free : (match step (State.reset.withFetchWord 16 0xC0FF) with
    | .next t => t.readV 0 = (Config.hostInput 0).rnd &&& 0xFF
    | _ => False) := rfl

/-- A word of every row runs as the first instruction after reset. -/
theorem test_every_row_runs_from_reset :
    [0x00E0, 0x00EE, 0x1234, 0x2FFE, 0x3A7F, 0x4007, 0x5AB0, 0x6C00, 0x7EFF, 0x8AB0, 0x8AB1, 0x8AB2, 0x8AB3, 0x8AB4, 0x8AB5, 0x8AB6,
      0x8AB7].all (fun w => afterStep w State.reset (fun _ => true)) = true ∧
    [0x8ABE, 0x9F00, 0xA000, 0xB2FF, 0xC1AA, 0xDABF, 0xE19E, 0xEFA1, 0xF007, 0xF10A, 0xF215, 0xF318, 0xF41E, 0xF529, 0xF633, 0xF755,
      0xF865].all (fun w => afterStep w State.reset (fun _ => true)) = true := by decide

/-! ## Witnesses: concrete states and operands that meet the hypotheses of the statements, at the boundaries of their ranges -/

/-- A halted state that satisfies the invariant: the word 0x0000 at 0x0200 was fetched. -/
def haltedState : State := { start with pc := 0x0202, fault := .unknownInstruction }

/-- A state about to run the word `w` at 0x0200. -/
def about (w : Nat) (s : State) : State := s.withFetchWord 16 w

/-- DecodeOfEncode. -/
theorem witness_decode_of_encode : Instr.wellFormed (.drw 15 0 15) = true ∧ encode (.drw 15 0 15) = 0xDF0F := by decide

/-- EncodeOfDecode. -/
theorem witness_encode_of_decode : decode 0xFF65 = .ok (.loadRegs 15) ∧ decode 0x00E0 = .ok .cls := by decide

/-- LegalWordsAreTheTables: words on both sides of each family's test. -/
theorem witness_legal_words :
    (legalWord 0x00EE ∧ ¬ legalWord 0x00EF) ∧ (legalWord 0x1000 ∧ legalWord 0xDFFF) ∧ (legalWord 0x5FF0 ∧ ¬ legalWord 0x5FF1) ∧
    (legalWord 0x8FF7 ∧ ¬ legalWord 0x8FF8) ∧ (legalWord 0x8FFE ∧ ¬ legalWord 0x8FFF) ∧ (legalWord 0xE09E ∧ ¬ legalWord 0xE09F) ∧
    (legalWord 0xF065 ∧ ¬ legalWord 0xF066) := by
  refine ⟨⟨?_, ?_⟩, ⟨?_, ?_⟩, ⟨?_, ?_⟩, ⟨?_, ?_⟩, ⟨?_, ?_⟩, ⟨?_, ?_⟩, ?_, ?_⟩ <;> (unfold legalWord; decide)

/-- CanonicalMemoriesThatReadAlikeAreEqual: two memories reached by different stores. -/
theorem witness_canonical_memories :
    Memory.wf (Memory.write (Memory.write start.mem 0xFFF 1) 0 2) ∧ Memory.wf (Memory.write (Memory.write start.mem 0x1000 2) 0xFFF 1) ∧
    Memory.write (Memory.write start.mem 0xFFF 1) 0 2 = Memory.write (Memory.write start.mem 0x1000 2) 0xFFF 1 := by decide

/-- StoredBytesAreFetched, BlockStore: a store of all sixteen registers that wraps, with an address outside the block. -/
theorem witness_store : ∃ t, exec (.storeRegs 15) { start with index := 0x0FF8 } = .next t ∧ 14 < (15#4).toNat ∧
    (∀ k ≤ 15, indexAddress { start with index := 0x0FF8 } k % 4096 ≠ 0x008 % 4096) :=
  ⟨_, rfl, by decide, by decide⟩

/-- BlockLoad: the last register loaded and the first one not loaded. -/
theorem witness_load : ∃ t, exec (.loadRegs 3) start = .next t ∧ (3#4).toNat ≤ (3#4).toNat ∧ (3#4).toNat < (4#4).toNat :=
  ⟨_, rfl, by decide, by decide⟩

/-- StepRunsTheDecodedInstruction, HaltedCoreStaysAsItIs: a halted state, a legal word and an illegal one. -/
theorem witness_step : haltedState.fault ≠ .none ∧ ¬ running haltedState ∧ (about 0x6000 start).fault = .none ∧
    decode (fetch (about 0x6000 start)) = .ok (.ldImm 0 0) ∧ decode (fetch start) = .error .family0 := by
  unfold running; decide

/-- StepAlwaysAnswers, WhenEachFaultIsRaised: the ends of SP's range, and a fault of each cause. -/
theorem witness_stack_range :
    (about 0x00EE start).fault = .none ∧ (about 0x00EE start).sp.toNat = 0 ∧ fetch (about 0x00EE start) = 0x00EE ∧
    (about 0x2FFF { start with sp := 16 }).fault = .none ∧ start.fault = .none ∧
    (about 0x2FFF { start with sp := 16 }).sp.toNat = 16 ∧ decode (fetch (about 0x2FFF { start with sp := 16 })) = .ok (.call 0xFFF) ∧
    ¬ legalWord (fetch start) := by unfold legalWord; decide

/-- TimersFallByElapsedTicks: steps that write each timer, read DT, and do none of these. -/
theorem witness_timers :
    [0xF115, 0xF118, 0xF107, 0x00E0].all (fun w => (about w start).fault == .none && afterStep w start (fun _ => true)) = true ∧
    decode (fetch (about 0xF115 start)) = .ok (.ldDtVx 1) ∧ decode (fetch (about 0xF118 start)) = .ok (.ldStVx 1) ∧
    decode (fetch (about 0xF107 start)) = .ok (.ldVxDt 1) := by decide

/-- PcAdvancesByTwo, FaultingStepKeepsTheRest: a step that does not write PC, and one that faults though its word does. -/
theorem witness_pc_advances : afterStep 0x6000 start (fun t => t.fault == .none) = true ∧
    (∀ i, decode (fetch (about 0x6000 start)) = .ok i → ¬ writesPc i) ∧
    afterStep 0x2200 { start with sp := 16 } (fun t => t.fault != .none) = true := by
  refine ⟨by decide, fun i h => ?_, by decide⟩
  have e : decode (fetch (about 0x6000 start)) = .ok (.ldImm 0 0) := by decide
  cases e.symm.trans h
  exact fun h => h

/-- OnlyCallAndReturnRaise: each of the three raises. -/
theorem witness_raise :
    (∃ t, exec (.call 1) { start with sp := 16 } = .next t ∧ t.fault ≠ start.fault) ∧
    (∃ t, exec .ret start = .next t ∧ t.fault ≠ start.fault) ∧ (∀ i, decode 0xFFFF ≠ .ok i) :=
  ⟨⟨_, rfl, by decide⟩, ⟨_, rfl, by decide⟩, fun i => by
    have e : decode 0xFFFF = .error .familyF := by decide
    rw [e]; exact fun h => nomatch h⟩

/-- StackPointerBeyondCapacityStops: both ends of the range. -/
theorem witness_sp_beyond : 16 < ({ start with sp := 17 } : State).sp.toNat ∧ 16 < ({ start with sp := 31 } : State).sp.toNat := by decide

/-- InvariantKeptByEveryStep: a running state that steps, and a halted one. -/
theorem witness_invariant : Inv (about 0x2ABC start) ∧ (∃ t, step (about 0x2ABC start) = .next t) ∧ Inv haltedState := by
  refine ⟨⟨by decide, by decide, ?_⟩, ⟨_, rfl⟩, ⟨by decide, by decide, ?_⟩⟩
  · show (about 0x2ABC start).faultWord = 0x0000; decide
  · exact ⟨by decide, .family0, by decide⟩

/-- InstructionsWriteOnlyTheirColumn, VfIsTheOnlyFlag (last clause), StrapsHoldForTheRun. -/
theorem witness_write_column : (∃ t, exec (.addReg 14 15) start = .next t) ∧ ¬ writesRegister (.addReg 14 15) 13 ∧
    (∃ t, exec (.orReg 14 15) start = .next t) ∧ ¬ writesRegister (.orReg 14 15) 15 ∧ (∃ t, step (about 0x8EF1 start) = .next t) := by
  refine ⟨⟨_, rfl⟩, ?_, ⟨_, rfl⟩, ?_, ⟨_, rfl⟩⟩ <;> (unfold writesRegister; decide)

/-- InstructionsReadOnlyTheirColumn: two states that agree only on what 8xy4 reads. -/
theorem witness_read_column :
    agreeOnReads (.addReg 1 2) (withV start [(3, 7)]) (withV { start with pc := 4, sp := 1, dt := 9 } [(3, 8), (15, 1)]) ∧
    (∃ t, exec (.addReg 1 2) (withV start [(3, 7)]) = .next t) ∧
    (∃ t, exec (.addReg 1 2) (withV { start with pc := 4, sp := 1, dt := 9 } [(3, 8), (15, 1)]) = .next t) := by
  refine ⟨?_, ⟨_, rfl⟩, ⟨_, rfl⟩⟩
  unfold agreeOnReads sameV; decide

/-- InputsReachOnlyTheirInstructions: a key instruction with the same keys and other inputs, Cxnn with the same byte, and another with nothing alike. -/
theorem witness_inputs :
    (((∃ x, Instr.skp 0 = .skp x ∨ Instr.skp 0 = .sknp x ∨ Instr.skp 0 = .ldVxKey x) →
      (⟨5, 6, 7⟩ : StepInput).keys = (withInput start 5 0 0).input.keys)) ∧
    ((∃ x nn, Instr.rnd 1 2 = .rnd x nn) → (⟨5, 6, 7⟩ : StepInput).rnd = (withInput start 0 0 7).input.rnd) ∧
    ¬ (∃ x, Instr.cls = .skp x ∨ Instr.cls = .sknp x ∨ Instr.cls = .ldVxKey x) ∧ ¬ (∃ x nn, Instr.cls = .rnd x nn) := by
  refine ⟨fun _ => rfl, fun _ => rfl, ?_, ?_⟩ <;> simp

/-- ResetLoadsTheImage: the largest image, one too large, an empty one, the last font byte, and the ends of each range that reads 0x00. -/
theorem witness_images : (List.replicate 3584 0x12#8).length ≤ 3584 ∧ 3584 < (List.replicate 3585 0x12#8).length ∧
    ([] : List Byte).length ≤ 3584 ∧ 79 < 80 ∧ 0x04F < 0x050 ∧ (0x0A0 ≤ 0x0A0 ∧ 0x1FF < 0x200) ∧
    0x200 + ([0x12, 0x00] : List Byte).length ≤ 0x202 := by
  simp only [List.length_replicate]; decide

/-- PlacedWordIsFetched: addresses on both sides of a word placed at the end of memory. -/
theorem witness_placed_word : 0x0FFE % 4096 ≠ ({ start with pc := 0x0FFF } : State).pc.toNat % 4096 ∧
    0x0001 % 4096 ≠ (({ start with pc := 0x0FFF } : State).pc.toNat + 1) % 4096 := by decide

/-- ResetState: the edges of the font. -/
theorem witness_font_edges : (0x04F < 0x050 ∨ (0x0A0 ≤ 0x04F ∧ 0x04F < 4096)) ∧ (0x0A0 < 0x050 ∨ (0x0A0 ≤ 0x0A0 ∧ 0x0A0 < 4096)) ∧
    79 < 80 := by decide

/-- CallPushesAndJumps, ReturnUndoesCall, ReturnPopsIntoPc: SP at each end of each clause. -/
theorem witness_call_and_return : ({ start with sp := 15 } : State).sp.toNat < 16 ∧ ({ start with sp := 16 } : State).sp.toNat = 16 ∧
    (∃ t, exec (.call 0xFFF) { start with sp := 15 } = .next t) ∧ start.sp.toNat = 0 ∧
    0 < ({ start with sp := 1 } : State).sp.toNat ∧ ({ start with sp := 16 } : State).sp.toNat ≤ 16 ∧
    (15#4).toNat + 1 = ({ start with sp := 16 } : State).sp.toNat :=
  ⟨by decide, by decide, ⟨_, rfl⟩, by decide, by decide, by decide, by decide⟩

/-- JumpToSelfStands. -/
theorem witness_jump_to_self : (about 0x1200 start).fault = .none ∧ (about 0x1200 start).pc.toNat = (0x200#12).toNat ∧
    fetch (about 0x1200 start) = wordNNN 0x1000 0x200 ∧ doneAt 0x200 (about 0x1200 start) := by unfold doneAt running; decide

/-- RegisterSkips, KeySkips: the test true and false. -/
theorem witness_skips : ((withV start [(1, 7)]).readV 1).toNat = (7#8).toNat ∧ (start.readV 1).toNat ≠ (7#8).toNat ∧
    (withInput start 0x8000 0 0).input.keys.getLsbD (((withV start [(1, 0x1F)]).readV 1).toNat % 16) = true := by decide

/-- AddWithCarry, SubtractWithNoBorrow, SubtractReversed, ShiftRight, ShiftLeft: a destination that is not VF, and registers left alone. -/
theorem witness_alu : (14#4) ≠ 15#4 ∧ (13#4) ≠ 14#4 ∧ (13#4) ≠ 15#4 := by decide

/-- DecimalStore: the address below the three bytes and the one above, around the end of memory. -/
theorem witness_decimal_store :
    (∀ k < 3, indexAddress { start with index := 0x0FFE } k % 4096 ≠ 0xFFD % 4096) ∧
    (∀ k < 3, indexAddress { start with index := 0x0FFE } k % 4096 ≠ 0x001 % 4096) := by decide

/-- StoreThenLoadBack: registers overwritten in between. -/
theorem witness_store_then_load_back : ∃ t w, exec (.storeRegs 3) start = .next t ∧ (withV t [(0, 9)]).mem = t.mem ∧
    (withV t [(0, 9)]).index = start.index ∧ exec (.loadRegs 3) (withV t [(0, 9)]) = .next w :=
  ⟨_, _, rfl, rfl, rfl, rfl⟩

/-- ClearScreen, DrawSprite: the last pixel, which a sprite at the corner covers. -/
theorem witness_draw : 2047 < 2048 ∧ 63 < 64 ∧ 31 < 32 ∧
    spriteCovers (withV (atIndex start 0x0300 [0xFF]) [(0, 0xFF), (1, 0xFF)]) 0 1 1 63 31 := by
  unfold spriteCovers; decide

/-- DrawTwiceRestores. -/
theorem witness_draw_twice : (0#4) ≠ 15#4 ∧ (14#4) ≠ 15#4 ∧ ∃ t, exec (.drw 0 14 15) start = .next t := ⟨by decide, by decide, _, rfl⟩

/-- KeyWait: no key, and one. -/
theorem witness_key_wait : start.input.keys = 0#16 ∧ (withInput start 0x8000 0 0).input.keys ≠ 0#16 := by decide

/-- WaitingStepStaysInPlace. -/
theorem witness_waiting : (about 0xFF0A start).fault = .none ∧ fetch (about 0xFF0A start) = wordX 0xF00A 15 ∧
    (about 0xFF0A start).input.keys = 0#16 := by decide

/-- TimerMoves: a sound timer value on each side of zero. -/
theorem witness_sound : (withV start [(0, 1)]).readV 0 ≠ 0x00#8 ∧ start.readV 0 = 0x00#8 := by decide

/-- FontParameterHoldsForTheRun: a step that stores over the font's first byte. -/
theorem witness_font_parameter :
    (∃ t, step (about 0xF055 (withV { start with index := 0x0050 } [(0, 0xAB)])) = .next t) ∧
    afterStep 0xF055 (withV { start with index := 0x0050 } [(0, 0xAB)]) (fun t => Memory.read t.mem 0x050 == 0xAB && t.mem.font == defaultFont) = true :=
  ⟨⟨_, rfl⟩, by decide⟩

/-- InputsArePresentedInOrder: listed inputs, and none listed. -/
theorem witness_inputs_in_order :
    (∃ t, step (about 0x00E0 { start with schedule := [⟨1, 2, 3⟩] }) = .next t) ∧ (about 0x00E0 { start with schedule := [⟨1, 2, 3⟩] }).fault = .none ∧
    (∃ t, step (about 0x00E0 start) = .next t) ∧ (about 0x00E0 start).fault = .none ∧ start.schedule = [] :=
  ⟨⟨_, rfl⟩, rfl, ⟨_, rfl⟩, rfl, rfl⟩

end Sys2Proof.Tests
end

section
/-! The scope family (spec/00_scope.md R6): what reset installs in memory, and the parameter FONT over a run. -/

namespace Sys2Proof.Machine

/-! ### What an execute phase stores -/

/-- The bytes an instruction stores, from I on (R55): three digits for Fx33 (R174), the register block for Fx55 (R175), none for any other. -/
def bytesStored (i : Instr) (s : State) : List Byte :=
  match i with
  | .ldB x => decimalDigits (s.readV x)
  | .storeRegs x => registerBlock s x
  | _ => []

/-- The memory after an execute phase is the memory before it with the instruction's bytes stored at I, a raised fault included. -/
theorem exec_mem {i : Instr} {s t : State} (h : exec i s = .next t) :
    t.mem = Memory.writeBytes s.mem (indexAddress s 0) (bytesStored i s) := by
  cases i with
  | ret => rcases execRet_cases h with ⟨-, rfl⟩ | ⟨-, -, rfl⟩ <;> rfl
  | call nnn => rcases execCall_cases h with ⟨-, rfl⟩ | ⟨-, rfl⟩ <;> rfl
  | seImm | sneImm | seReg | sneReg | skp | sknp => cases h; exact skipIf_mem s _
  | ldVxKey x => cases h; split <;> rfl
  | addI x => cases h; exact writeIndexFlag_mem _ _
  | loadRegs x => cases h; exact loadRegisters_mem s _
  | _ => cases h; rfl

/-- A step leaves memory as it is or makes one store to it. -/
theorem step_mem_cases {s t : State} (h : step s = .next t) :
    t.mem = s.mem ∨ ∃ a bytes, t.mem = Memory.writeBytes s.mem a bytes := by
  rcases step_cases h with ⟨-, rfl⟩ | ⟨-, -, rfl⟩ | ⟨-, i, u, -, hu, rfl⟩
  · exact .inl rfl
  · exact .inl (presentNextInput_mem _)
  · refine .inr ⟨indexAddress (beginStep s) 0, bytesStored i (beginStep s), ?_⟩
    rw [presentNextInput_mem, exec_mem hu, beginStep_mem]

/-! ### Reset with a program image (R270, R272) -/

/-- The memory the loader makes: the font where nothing is listed, and the image stored from 0x200. -/
def loadedMemory (font : Vector Byte 80) (image : List Byte) : Memory :=
  Memory.writeBytes { font := font, cells := [] } progBase image

theorem resetWithImage_of_fits (font : Vector Byte 80) {image : List Byte} (h : image.length ≤ progMax) :
    resetWithImage font image = some { State.reset with mem := loadedMemory font image } :=
  if_pos (decide_eq_true h)

theorem resetWithImage_of_too_long (font : Vector Byte 80) {image : List Byte} (h : progMax < image.length) :
    resetWithImage font image = none :=
  if_neg (by simpa [imageWellFormed] using h)

@[simp] theorem loadedMemory_font (font : Vector Byte 80) (image : List Byte) : (loadedMemory font image).font = font :=
  writeBytes_font _ _ _

theorem loadedMemory_wf (font : Vector Byte 80) (image : List Byte) : Memory.wf (loadedMemory font image) :=
  wf_writeBytes (wf_nil font) _ _

theorem read_loadedMemory_image (font : Vector Byte 80) {image : List Byte} (h : image.length ≤ progMax)
    (k : Nat) (hk : k < image.length) : Memory.read (loadedMemory font image) (progBase + k) = image[k] :=
  read_writeBytes_inside _ _ _ (h.trans (by decide)) k hk

/-- Outside the image, memory reads as the font and zeros: an image that fits does not wrap around the end of memory. -/
theorem read_loadedMemory_outside (font : Vector Byte 80) {image : List Byte} (h : image.length ≤ progMax)
    {a : Nat} (ha : a < memSize) (hout : a < progBase ∨ progBase + image.length ≤ a) :
    Memory.read (loadedMemory font image) a = unlistedByte font a := by
  rw [loadedMemory, read_writeBytes_outside, read_nil, Nat.mod_eq_of_lt ha]
  intro k hk
  simp only [memSize, progBase, progMax] at *
  omega

end Sys2Proof.Machine

namespace Sys2Proof.Proofs.Scope

open Sys2Proof.Machine

/-- Settles O26: the loader's length test, then the loaded memory read inside the image, in the font and elsewhere. -/
theorem resetLoadsTheImage : Obligations.ResetLoadsTheImage := by
  unfold Obligations.ResetLoadsTheImage
  intro font image
  refine ⟨resetWithImage_of_too_long font, fun hfit => ?_, rfl⟩
  refine ⟨_, resetWithImage_of_fits font hfit, rfl, loadedMemory_font font image, loadedMemory_wf font image,
    read_loadedMemory_image font hfit, fun k hk => ?_, fun a ha hout => ?_⟩
  · rw [read_loadedMemory_outside font hfit (by simp only [memSize]; omega) (by simp only [progBase]; omega),
      unlistedByte_font font k hk]
  · rw [read_loadedMemory_outside font hfit ha (by simp only [progBase]; omega),
      unlistedByte_outside font (by omega)]

/-- Settles O58: a step's one store, if it makes one, changes the cells and not the parameter. -/
theorem fontParameterHoldsForTheRun : Obligations.FontParameterHoldsForTheRun := by
  unfold Obligations.FontParameterHoldsForTheRun
  intro s t h
  rcases step_mem_cases h with hmem | ⟨a, bytes, hmem⟩
  · rw [hmem]
  · rw [hmem, writeBytes_font]

end Sys2Proof.Proofs.Scope
end

section
/-! The state family (spec/10_state.md): the write and read columns of R38, the invariant, the inputs, the flag and reset. -/

namespace Sys2Proof

/-! ### The words of the two instructions that raise -/

/-- Family 2 is CALL's alone, so a word that decodes to CALL is CALL's encoding. -/
theorem encode_of_decode_call {w : Word} {nnn : Addr12} (h : decode w = .ok (.call nnn)) : encode (.call nnn) = w := by
  have hfields : fieldN1 w = 0x2#4 ∧ fieldNNN w = nnn := by
    unfold decode decodeFamily0 decodeFamily8 decodeFamilyE decodeFamilyF at h
    split at h
    case h_3 hn1 =>
      cases h
      exact ⟨BitVec.eq_of_toNat_eq hn1, rfl⟩
    all_goals (repeat' split at h) <;> cases h
  obtain ⟨hn1, rfl⟩ := hfields
  rw [encode, ← hn1, packNNN_fields]

/-- Family 0 matches whole words, so the one word that decodes to RET is its encoding. -/
theorem encode_of_decode_ret {w : Word} (h : decode w = .ok .ret) : encode .ret = w := by
  unfold decode decodeFamily0 decodeFamily8 decodeFamilyE decodeFamilyF at h
  split at h
  case h_1 =>
    split at h
    · cases h
    · split at h
      case isTrue hw => exact hw.symm
      case isFalse => cases h
  all_goals (repeat' split at h) <;> cases h

end Sys2Proof

namespace Sys2Proof.Machine

/-! ### The latch clause of the invariant, one value of the latch at a time -/

section Latch

variable {s : State}

theorem latchConsistent_none_iff (h : s.fault = .none) : LatchConsistent s ↔ s.faultWord = 0x0000#16 := by
  simp [LatchConsistent, h]

theorem latchConsistent_unknownInstruction_iff (h : s.fault = .unknownInstruction) :
    LatchConsistent s ↔
      s.faultWord = Memory.fetchWord s.mem (s.pc - 2#16).toNat ∧ ∃ e, decode s.faultWord = .error e := by
  simp [LatchConsistent, h]

theorem latchConsistent_stackOverflow_iff (h : s.fault = .stackOverflow) :
    LatchConsistent s ↔
      s.faultWord = Memory.fetchWord s.mem (s.pc - 2#16).toNat ∧ (∃ nnn, decode s.faultWord = .ok (.call nnn)) ∧
        s.sp.toNat = stackDepth := by
  simp [LatchConsistent, h]

theorem latchConsistent_stackUnderflow_iff (h : s.fault = .stackUnderflow) :
    LatchConsistent s ↔
      s.faultWord = Memory.fetchWord s.mem (s.pc - 2#16).toNat ∧ decode s.faultWord = .ok .ret ∧ s.sp.toNat = 0 := by
  simp [LatchConsistent, h]

end Latch

/-- The host's inputs are no part of the latch clause. -/
theorem latchConsistent_presentNextInput (s : State) : LatchConsistent (presentNextInput s) ↔ LatchConsistent s := by
  simp [LatchConsistent]

/-- The word at PC - 2 in a step that has begun is the word fetched (R103). -/
theorem fetchWord_beginStep (s : State) :
    Memory.fetchWord (beginStep s).mem ((beginStep s).pc - 2#16).toNat = fetch s := by
  simp [fetch]

/-! ### What the host presents after a step (R32, R107) -/

theorem presentNextInput_of_listed {s : State} {j : StepInput} {rest : List StepInput} (h : s.schedule = j :: rest) :
    presentNextInput s = { s with input := j, schedule := rest } := by
  rw [presentNextInput, h]

theorem presentNextInput_of_unlisted {s : State} (h : s.schedule = []) :
    presentNextInput s = { s with input := Config.hostInput s.draws, draws := s.draws + 1 } := by
  rw [presentNextInput, h]

/-! ### The canonical form names its memory -/

/-- What a list of cells reads as at an address is the value that stands for an unlisted one, or a listed value. -/
theorem lookupCell_eq_or_mem (cells : List Host.Cell) (a : Nat) (u : Byte) :
    lookupCell cells a u = u ∨ (a, lookupCell cells a u) ∈ cells := by
  induction cells with
  | nil => exact .inl rfl
  | cons d rest ih =>
    obtain ⟨k, b⟩ := d
    by_cases hk : k = a
    · simp [lookupCell, hk]
    · simpa [lookupCell, hk, Ne.symm hk] using ih

/-- A listed cell is the one its address reads as, since no address is listed twice. -/
theorem lookupCell_of_mem {cells : List Host.Cell} (hsorted : cells.Pairwise (fun c d => c.1 < d.1)) {a : Nat} {b : Byte}
    (hmem : (a, b) ∈ cells) (u : Byte) : lookupCell cells a u = b := by
  induction cells with
  | nil => cases hmem
  | cons d rest ih =>
    obtain ⟨k, c⟩ := d
    obtain ⟨hlt, hrest⟩ := List.pairwise_cons.1 hsorted
    rcases List.mem_cons.1 hmem with heq | hmem
    · cases heq
      exact if_pos rfl
    · exact (if_neg (hlt _ hmem).ne).trans (ih hrest hmem)

/-- A canonical memory lists exactly the cells that read as something other than their unlisted byte. -/
theorem mem_cells_iff {m : Memory} (h : Memory.wf m) (a : Nat) (b : Byte) :
    (a, b) ∈ m.cells ↔ a < memSize ∧ Memory.read m a = b ∧ b ≠ unlistedByte m.font a := by
  obtain ⟨hsorted, hcells⟩ := h
  constructor
  · intro hmem
    obtain ⟨ha, hb⟩ := hcells _ hmem
    refine ⟨ha, ?_, hb⟩
    rw [Memory.read, Nat.mod_eq_of_lt ha, Memory.cell, lookupCell_of_mem hsorted hmem]
  · rintro ⟨ha, rfl, hb⟩
    rw [Memory.read, Nat.mod_eq_of_lt ha, Memory.cell] at hb ⊢
    exact (lookupCell_eq_or_mem _ _ _).resolve_left hb

/-- Two lists of cells at rising addresses with the same members are one list. -/
theorem cells_eq_of_mem_iff {l l' : List Host.Cell} (h : l.Pairwise (fun c d => c.1 < d.1))
    (h' : l'.Pairwise (fun c d => c.1 < d.1)) (hmem : ∀ c, c ∈ l ↔ c ∈ l') : l = l' := by
  have : Std.Irrefl (fun c d : Host.Cell => c.1 < d.1) := ⟨fun c => Nat.lt_irrefl c.1⟩
  have : Std.Antisymm (fun c d : Host.Cell => c.1 < d.1) := ⟨fun c d hcd hdc => absurd hcd hdc.not_gt⟩
  exact h.eq_of_mem_iff h' hmem

/-! ### The flags of R21 -/

/-- R150: the flag of a flag-writing ALU operation, whatever its destination. -/
@[simp] theorem readV_flag_writeResultAndFlag (s : State) (x : Nibble) (r f : Byte) :
    (s.writeResultAndFlag x r f).readV 0xF#4 = f :=
  readV_writeV_same _ _ _

/-- R194: a drawing collides exactly when it turns some pixel of the screen from 1 to 0. -/
theorem drawSprite_collides_iff (x y n : Nibble) (s : State) :
    (drawSprite x y n s).2 = true ↔
      ∃ k < 2048, Framebuffer.cell s.fb k = true ∧ Framebuffer.cell (drawSprite x y n s).1 k = false := by
  unfold drawSprite
  rw [collides_drawRows]
  constructor
  · rintro (hfalse | ⟨c, r, hc, hr, hbit, hset⟩)
    · cases hfalse
    · refine ⟨r * 64 + c, by omega, hset, ?_⟩
      rw [cell_drawRows _ _ _ _ _ _ _ hc hr, hset, hbit]
      rfl
  · rintro ⟨k, hk, hset, hcleared⟩
    have hc : k % 64 < 64 := Nat.mod_lt _ (by decide)
    have hr : k / 64 < 32 := by omega
    rw [← Nat.div_add_mod' k 64] at hset hcleared
    rw [cell_drawRows _ _ _ _ _ _ _ hc hr, hset] at hcleared
    exact .inr ⟨k % 64, k / 64, hc, hr, by simpa using hcleared, hset⟩

section Operands

variable {s s' : State}

/-! ### What the operands of an instruction depend on -/

theorem shiftOperand_congr {x y : Nibble} (hstrap : s.straps.qShift = s'.straps.qShift)
    (h : if s.straps.qShift then s.readV y = s'.readV y else s.readV x = s'.readV x) :
    shiftOperand s x y = shiftOperand s' x y := by
  unfold shiftOperand
  rw [← hstrap]
  cases hq : s.straps.qShift <;> simpa [hq] using h

theorem jumpOffset_congr {nnn : Addr12} (hstrap : s.straps.qJumpVx = s'.straps.qJumpVx)
    (h : if s.straps.qJumpVx then s.readV (nnn.extractLsb' 8 4) = s'.readV (nnn.extractLsb' 8 4)
      else s.readV 0#4 = s'.readV 0#4) : jumpOffset s nnn = jumpOffset s' nnn := by
  unfold jumpOffset
  rw [← hstrap]
  cases hq : s.straps.qJumpVx <;> simpa [hq] using h

theorem keyPressed_keyOperand_congr {x : Nibble} (hx : s.readV x = s'.readV x) (hkeys : s.input.keys = s'.input.keys) :
    keyPressed s (keyOperand s x) = keyPressed s' (keyOperand s' x) := by
  rw [keyPressed, keyPressed, keyOperand, keyOperand, hx, hkeys]

theorem registerBlock_congr {x : Nibble} (h : ∀ r : Nibble, r.toNat ≤ x.toNat → s.readV r = s'.readV r) :
    registerBlock s x = registerBlock s' x := by
  refine List.map_congr_left fun k hk => h _ ?_
  have hk : k < x.toNat + 1 := List.mem_range.1 hk
  rw [BitVec.toNat_ofNat]
  omega

theorem indexAddress_congr (h : s.index = s'.index) (k : Nat) : indexAddress s k = indexAddress s' k := by
  rw [indexAddress, indexAddress, h]

theorem indexPastBlock_congr (h : s.index = s'.index) (x : Nibble) : indexPastBlock s x = indexPastBlock s' x := by
  rw [indexPastBlock, indexPastBlock, h]

theorem drawSprite_congr {x y n : Nibble} (hx : s.readV x = s'.readV x) (hy : s.readV y = s'.readV y)
    (hfb : s.fb = s'.fb)
    (hbytes : ∀ k < n.toNat, Memory.read s.mem (indexAddress s k) = Memory.read s'.mem (indexAddress s' k)) :
    drawSprite x y n s = drawSprite x y n s' := by
  rw [drawSprite, drawSprite, hx, hy, hfb, drawRows_congr s s' _ _ _ _ hbytes]

end Operands

end Sys2Proof.Machine

namespace Sys2Proof.Spec

open Sys2Proof.Machine

/-! ### The write column of R38, one rule for each operation on the state -/

section WriteColumn

variable {i : Instr} {s t : State}

theorem changesOnlyItsColumn.refl (i : Instr) (s : State) : changesOnlyItsColumn i s s := by
  simp [changesOnlyItsColumn]

theorem changesOnlyItsColumn.writeV (h : changesOnlyItsColumn i s t) {r : Nibble} (hr : writesRegister i r) (b : Byte) :
    changesOnlyItsColumn i s (t.writeV r b) := by
  obtain ⟨hv, hrest⟩ := h
  refine ⟨fun q hq => ?_, hrest⟩
  have hne : r ≠ q := by rintro rfl; exact hq hr
  rw [readV_writeV_ne _ hne, hv q hq]

theorem changesOnlyItsColumn.writePc (h : changesOnlyItsColumn i s t) (hi : writesPc i) (w : Word) :
    changesOnlyItsColumn i s (t.writePc w) := by
  obtain ⟨hv, -, hrest⟩ := h
  exact ⟨hv, fun hn => absurd hi hn, hrest⟩

theorem changesOnlyItsColumn.writeIndex (h : changesOnlyItsColumn i s t) {w : Word} (hw : ¬ writesIndex i s → w = s.index) :
    changesOnlyItsColumn i s (t.writeIndex w) := by
  obtain ⟨hv, hpc, -, hrest⟩ := h
  exact ⟨hv, hpc, hw, hrest⟩

theorem changesOnlyItsColumn.writeDt (h : changesOnlyItsColumn i s t) (hi : ∃ x, i = .ldDtVx x) (b : Byte) :
    changesOnlyItsColumn i s (t.writeDt b) := by
  obtain ⟨hv, hpc, hindex, hlatch, hstack, -, hrest⟩ := h
  obtain ⟨x, rfl⟩ := hi
  exact ⟨hv, hpc, hindex, hlatch, hstack, fun hn => absurd rfl (hn x), hrest⟩

theorem changesOnlyItsColumn.writeSt (h : changesOnlyItsColumn i s t) (hi : ∃ x, i = .ldStVx x) (b : Byte) :
    changesOnlyItsColumn i s (t.writeSt b) := by
  obtain ⟨hv, hpc, hindex, hlatch, hstack, hdt, -, hrest⟩ := h
  obtain ⟨x, rfl⟩ := hi
  exact ⟨hv, hpc, hindex, hlatch, hstack, hdt, fun hn => absurd rfl (hn x), hrest⟩

theorem changesOnlyItsColumn.writeFb (h : changesOnlyItsColumn i s t) (hi : i = .cls ∨ ∃ x y n, i = .drw x y n)
    (fb : Framebuffer) : changesOnlyItsColumn i s (t.writeFb fb) := by
  obtain ⟨hv, hpc, hindex, hlatch, hstack, hdt, hst, -, hrest⟩ := h
  refine ⟨hv, hpc, hindex, hlatch, hstack, hdt, hst, fun hcls hdrw => ?_, hrest⟩
  rcases hi with hi | ⟨x, y, n, hi⟩
  · exact absurd hi hcls
  · exact absurd hi (hdrw x y n)

/-- The bytes stored at I and after may change, and no other (R55). -/
theorem changesOnlyItsColumn.writeMem (h : changesOnlyItsColumn i s t) {bytes : List Byte}
    (hlen : bytes.length = storedBytes i) :
    changesOnlyItsColumn i s (t.writeMem (Memory.writeBytes t.mem (indexAddress s 0) bytes)) := by
  obtain ⟨hv, hpc, hindex, hlatch, hstack, hdt, hst, hfb, hmem, hfont, hhost⟩ := h
  refine ⟨hv, hpc, hindex, hlatch, hstack, hdt, hst, hfb, fun a ha => ?_, (writeBytes_font _ _ _).trans hfont, hhost⟩
  exact (read_writeBytes_outside _ _ _ _ fun k hk => ha k (hlen ▸ hk)).trans (hmem a ha)

theorem changesOnlyItsColumn.pushStack {nnn : Addr12} (h : changesOnlyItsColumn (.call nnn) s t) (w : Word) :
    changesOnlyItsColumn (.call nnn) s (t.pushStack w) := by
  obtain ⟨hv, hpc, hindex, -, -, hrest⟩ := h
  exact ⟨hv, hpc, hindex, fun _ hn => absurd rfl (hn nnn), fun hn => absurd rfl (hn nnn), hrest⟩

theorem changesOnlyItsColumn.popStack (h : changesOnlyItsColumn .ret s t) : changesOnlyItsColumn .ret s t.popStack := by
  obtain ⟨hv, -, hindex, -, hrest⟩ := h
  exact ⟨hv, fun hn => absurd trivial hn, hindex, fun hn => absurd rfl hn, hrest⟩

theorem changesOnlyItsColumn.raise (h : changesOnlyItsColumn i s t) (hi : i = .ret ∨ ∃ nnn, i = .call nnn)
    (f : FaultLatch) (w : Word) : changesOnlyItsColumn i s (raise f w t) := by
  obtain ⟨hv, hpc, hindex, -, hrest⟩ := h
  refine ⟨hv, hpc, hindex, fun hret hcall => ?_, hrest⟩
  rcases hi with hi | ⟨nnn, hi⟩
  · exact absurd hi hret
  · exact absurd hi (hcall nnn)

theorem changesOnlyItsColumn.skipIf (h : changesOnlyItsColumn i s t) (hi : writesPc i) (c : Bool) :
    changesOnlyItsColumn i s (skipIf c t) := by
  cases c with
  | true => exact h.writePc hi _
  | false => exact h

theorem changesOnlyItsColumn.writeIndexFlag (h : changesOnlyItsColumn i s t) (hi : writesRegister i 0xF#4) (o : Bool) :
    changesOnlyItsColumn i s (writeIndexFlag o t) := by
  unfold Machine.writeIndexFlag
  split
  · exact h.writeV hi _
  · split
    · exact h.writeV hi _
    · exact h

theorem changesOnlyItsColumn.loadRegisters (h : changesOnlyItsColumn i s t) {count : Nat}
    (hi : ∀ k < count, writesRegister i (BitVec.ofNat 4 k)) : changesOnlyItsColumn i s (loadRegisters t count) := by
  induction count with
  | zero => exact h
  | succ k ih => exact (ih fun j hj => hi j (by omega)).writeV (hi k (by omega)) _

end WriteColumn

/-- R38, write column: the writes of each instruction, in order, are all in its row. -/
theorem exec_changesOnlyItsColumn {i : Instr} {s t : State} (h : exec i s = .next t) : changesOnlyItsColumn i s t := by
  have same := changesOnlyItsColumn.refl i s
  cases i with
  | ret =>
    rcases execRet_cases h with ⟨-, rfl⟩ | ⟨-, -, rfl⟩
    · exact same.raise (.inl rfl) _ _
    · exact same.popStack
  | call nnn =>
    rcases execCall_cases h with ⟨-, rfl⟩ | ⟨-, rfl⟩
    · exact same.raise (.inr ⟨nnn, rfl⟩) _ _
    · exact (same.pushStack _).writePc trivial _
  | cls => cases h; exact same.writeFb (.inl rfl) _
  | drw x y n => cases h; exact (same.writeFb (.inr ⟨x, y, n, rfl⟩) _).writeV rfl _
  | jp | jpV0 => cases h; exact same.writePc trivial _
  | seImm | sneImm | seReg | sneReg | skp | sknp => cases h; exact same.skipIf trivial _
  | ldImm | addImm | rnd | ldReg | orReg | andReg | xorReg | ldVxDt => cases h; exact same.writeV rfl _
  | addReg | subReg | shr | subn | shl => cases h; exact (same.writeV (.inl rfl) _).writeV (.inr rfl) _
  | ldVxKey x =>
    cases h
    split
    · exact same.writePc trivial _
    · exact same.writeV rfl _
  | ldDtVx x => cases h; exact same.writeDt ⟨x, rfl⟩ _
  | ldStVx x => cases h; exact same.writeSt ⟨x, rfl⟩ _
  | ldI | ldF => cases h; exact same.writeIndex fun hn => absurd trivial hn
  | addI x => cases h; exact (same.writeIndex fun hn => absurd trivial hn).writeIndexFlag rfl _
  | ldB x => cases h; exact same.writeMem rfl
  | storeRegs x => cases h; exact (same.writeMem (registerBlock_length s x)).writeIndex fun hn => if_neg hn
  | loadRegs x =>
    cases h
    refine (same.loadRegisters fun k hk => ?_).writeIndex fun hn => if_neg hn
    simp only [writesRegister, BitVec.toNat_ofNat]
    omega

/-! ### Equal effects in two runs, one rule for each operation on the state -/

section ReadColumn

variable {s t s' t' : State}

theorem sameEffects.refl (s s' : State) : sameEffects s s s' s' := by
  simp [sameEffects, sameEffect]

theorem sameEffects.writeV (h : sameEffects s t s' t') (r : Nibble) {b b' : Byte} (hb : b = b') :
    sameEffects s (t.writeV r b) s' (t'.writeV r b') := by
  obtain ⟨hv, hrest⟩ := h
  refine ⟨fun q => ?_, hrest⟩
  subst hb
  by_cases hq : r = q
  · subst hq
    exact .inl ((readV_writeV_same _ _ _).trans (readV_writeV_same _ _ _).symm)
  · simpa only [sameEffect, readV_writeV_ne _ hq] using hv q

theorem sameEffects.writeIndex (h : sameEffects s t s' t') {w w' : Word} (hw : w = w') :
    sameEffects s (t.writeIndex w) s' (t'.writeIndex w') := by
  obtain ⟨hv, -, hrest⟩ := h
  exact ⟨hv, .inl hw, hrest⟩

theorem sameEffects.writePc (h : sameEffects s t s' t') {w w' : Word} (hw : w = w') :
    sameEffects s (t.writePc w) s' (t'.writePc w') := by
  obtain ⟨hv, hindex, -, hrest⟩ := h
  exact ⟨hv, hindex, .inl hw, hrest⟩

theorem sameEffects.pushStack (h : sameEffects s t s' t') (hsp : t.sp = t'.sp) {w w' : Word} (hw : w = w') :
    sameEffects s (t.pushStack w) s' (t'.pushStack w') := by
  obtain ⟨hv, hindex, hpc, hstack, -, hrest⟩ := h
  refine ⟨hv, hindex, hpc, fun k => ?_, .inl (congrArg (· + 1#5) hsp), hrest⟩
  have hk := hstack k
  simp only [sameEffect, readStack_pushStack, ← hsp, ← hw] at hk ⊢
  split
  · exact .inl rfl
  · exact hk

theorem sameEffects.popStack (h : sameEffects s t s' t') (hsp : t.sp = t'.sp) (hstack : t.stack = t'.stack) :
    sameEffects s t.popStack s' t'.popStack := by
  obtain ⟨hv, hindex, -, hentries, -, hrest⟩ := h
  refine ⟨hv, hindex, .inl ?_, hentries, .inl (congrArg (· - 1#5) hsp), hrest⟩
  rw [popStack_pc, popStack_pc, State.readStack, State.readStack, hsp, hstack]

theorem sameEffects.writeDt (h : sameEffects s t s' t') {b b' : Byte} (hb : b = b') :
    sameEffects s (t.writeDt b) s' (t'.writeDt b') := by
  obtain ⟨hv, hindex, hpc, hstack, hsp, -, hrest⟩ := h
  exact ⟨hv, hindex, hpc, hstack, hsp, .inl hb, hrest⟩

theorem sameEffects.writeSt (h : sameEffects s t s' t') {b b' : Byte} (hb : b = b') :
    sameEffects s (t.writeSt b) s' (t'.writeSt b') := by
  obtain ⟨hv, hindex, hpc, hstack, hsp, hdt, -, hrest⟩ := h
  exact ⟨hv, hindex, hpc, hstack, hsp, hdt, .inl hb, hrest⟩

theorem sameEffects.writeFb (h : sameEffects s t s' t') {fb fb' : Framebuffer} (hfb : fb = fb') :
    sameEffects s (t.writeFb fb) s' (t'.writeFb fb') := by
  obtain ⟨hv, hindex, hpc, hstack, hsp, hdt, hst, -, hrest⟩ := h
  exact ⟨hv, hindex, hpc, hstack, hsp, hdt, hst, .inl hfb, hrest⟩

theorem sameEffects.raise (h : sameEffects s t s' t') (f : FaultLatch) (w : Word) :
    sameEffects s (raise f w t) s' (raise f w t') := by
  obtain ⟨hv, hindex, hpc, hstack, hsp, hdt, hst, hfb, hmem, -, -⟩ := h
  exact ⟨hv, hindex, hpc, hstack, hsp, hdt, hst, hfb, hmem, .inl rfl, .inl rfl⟩

theorem sameEffects.writeByte (h : sameEffects s t s' t') (a : Nat) (b : Byte) :
    sameEffects s (t.writeMem (Memory.write t.mem a b)) s' (t'.writeMem (Memory.write t'.mem a b)) := by
  obtain ⟨hv, hindex, hpc, hstack, hsp, hdt, hst, hfb, hmem, hlatch⟩ := h
  refine ⟨hv, hindex, hpc, hstack, hsp, hdt, hst, hfb, fun c => ?_, hlatch⟩
  have hc := hmem c
  simp only [sameEffect, writeMem_mem, read_write] at hc ⊢
  split
  · exact .inl rfl
  · exact hc

theorem sameEffects.writeMem (h : sameEffects s t s' t') {a a' : Nat} (ha : a = a') {bytes bytes' : List Byte}
    (hbytes : bytes = bytes') :
    sameEffects s (t.writeMem (Memory.writeBytes t.mem a bytes)) s' (t'.writeMem (Memory.writeBytes t'.mem a' bytes')) := by
  subst ha hbytes
  induction bytes generalizing t t' a with
  | nil => exact h
  | cons b rest ih => exact ih (h.writeByte a b) (a := a + 1)

theorem sameEffects.skipIf (h : sameEffects s t s' t') {c c' : Bool} (hc : c = c') (hpc : t.pc = t'.pc) :
    sameEffects s (skipIf c t) s' (skipIf c' t') := by
  subst hc
  cases c with
  | true => exact h.writePc (congrArg (· + 2#16) hpc)
  | false => exact h

theorem sameEffects.writeIndexFlag (h : sameEffects s t s' t') {o o' : Bool} (ho : o = o')
    (hstrap : t.straps.fx1eClearsVf = t'.straps.fx1eClearsVf) :
    sameEffects s (writeIndexFlag o t) s' (writeIndexFlag o' t') := by
  subst ho
  unfold Machine.writeIndexFlag
  rw [← hstrap]
  split
  · exact h.writeV _ rfl
  · split
    · exact h.writeV _ rfl
    · exact h

theorem sameEffects.loadRegisters (h : sameEffects s t s' t') {count : Nat}
    (hbytes : ∀ k < count, Memory.read t.mem (indexAddress t k) = Memory.read t'.mem (indexAddress t' k)) :
    sameEffects s (loadRegisters t count) s' (loadRegisters t' count) := by
  induction count with
  | zero => exact h
  | succ k ih => exact (ih fun j hj => hbytes j (by omega)).writeV _ (hbytes k (by omega))

/-- The index an Fx55 or Fx65 leaves, from the same I and strap. -/
theorem sameEffects.writeIndexPastBlock (h : sameEffects s t s' t') (hindex : s.index = s'.index) {q q' : Bool}
    (hq : q = q') (x : Nibble) :
    sameEffects s (t.writeIndex (if q then indexPastBlock s x else s.index)) s'
      (t'.writeIndex (if q' then indexPastBlock s' x else s'.index)) :=
  h.writeIndex (by rw [hq, indexPastBlock_congr hindex, hindex])

end ReadColumn

/-- RET branches on SP, which the two runs share (R121). -/
theorem execRet_sameEffects {s s' t t' : State} (hsp : s.sp = s'.sp) (hstack : s.stack = s'.stack)
    (h : execRet s = .next t) (h' : execRet s' = .next t') : sameEffects s t s' t' := by
  have same := sameEffects.refl s s'
  rcases execRet_cases h with ⟨hzero, rfl⟩ | ⟨hpos, -, rfl⟩ <;>
    rcases execRet_cases h' with ⟨hzero', rfl⟩ | ⟨hpos', -, rfl⟩
  · exact same.raise _ _
  · rw [hsp] at hzero; omega
  · rw [hsp] at hpos; omega
  · exact same.popStack hsp hstack

/-- CALL branches on SP, which the two runs share (R123). -/
theorem execCall_sameEffects {nnn : Addr12} {s s' t t' : State} (hsp : s.sp = s'.sp) (hpc : s.pc = s'.pc)
    (h : execCall nnn s = .next t) (h' : execCall nnn s' = .next t') : sameEffects s t s' t' := by
  have same := sameEffects.refl s s'
  rcases execCall_cases h with ⟨hfull, rfl⟩ | ⟨hroom, rfl⟩ <;>
    rcases execCall_cases h' with ⟨hfull', rfl⟩ | ⟨hroom', rfl⟩
  · exact same.raise _ _
  · rw [hsp] at hfull; omega
  · rw [hsp] at hroom; omega
  · exact (same.pushStack hsp hpc).writePc rfl

/-- R38, read column: what each instruction writes, in order, is computed from what the two runs share. -/
theorem exec_sameEffects {i : Instr} {s s' t t' : State} (hr : agreeOnReads i s s') (h : exec i s = .next t)
    (h' : exec i s' = .next t') : sameEffects s t s' t' := by
  have same := sameEffects.refl s s'
  cases i with
  | cls => cases h; cases h'; exact same.writeFb rfl
  | ret => exact execRet_sameEffects hr.1 hr.2 h h'
  | call nnn => exact execCall_sameEffects hr.1 hr.2 h h'
  | jp nnn => cases h; cases h'; exact same.writePc rfl
  | jpV0 nnn =>
    obtain ⟨hstrap, hoffset⟩ := hr
    cases h; cases h'
    exact same.writePc (congrArg (fun b => addressOperand nnn + b.setWidth 16) (jumpOffset_congr hstrap hoffset))
  | seImm x nn =>
    obtain ⟨hx, hpc⟩ := hr
    cases h; cases h'
    exact same.skipIf (congrArg (· == nn) hx) hpc
  | sneImm x nn =>
    obtain ⟨hx, hpc⟩ := hr
    cases h; cases h'
    exact same.skipIf (congrArg (· != nn) hx) hpc
  | seReg x y =>
    obtain ⟨hx, hy, hpc⟩ := hr
    cases h; cases h'
    exact same.skipIf (congrArg₂ (· == ·) hx hy) hpc
  | sneReg x y =>
    obtain ⟨hx, hy, hpc⟩ := hr
    cases h; cases h'
    exact same.skipIf (congrArg₂ (· != ·) hx hy) hpc
  | ldImm x nn => cases h; cases h'; exact same.writeV x rfl
  | addImm x nn => cases h; cases h'; exact same.writeV x (congrArg (· + nn) hr)
  | rnd x nn => cases h; cases h'; exact same.writeV x (congrArg (· &&& nn) hr)
  | ldReg x y => cases h; cases h'; exact same.writeV x hr
  | orReg x y => cases h; cases h'; exact same.writeV x (congrArg₂ (· ||| ·) hr.1 hr.2)
  | andReg x y => cases h; cases h'; exact same.writeV x (congrArg₂ (· &&& ·) hr.1 hr.2)
  | xorReg x y => cases h; cases h'; exact same.writeV x (congrArg₂ (· ^^^ ·) hr.1 hr.2)
  | addReg x y =>
    obtain ⟨hx, hy⟩ := hr
    cases h; cases h'
    exact (same.writeV x (congrArg₂ (· + ·) hx hy)).writeV _ (congrArg flagByte (congrArg₂ carryOfAdd hx hy))
  | subReg x y =>
    obtain ⟨hx, hy⟩ := hr
    cases h; cases h'
    exact (same.writeV x (congrArg₂ (· - ·) hx hy)).writeV _ (congrArg flagByte (congrArg₂ noBorrow hx hy))
  | subn x y =>
    obtain ⟨hx, hy⟩ := hr
    cases h; cases h'
    exact (same.writeV x (congrArg₂ (· - ·) hy hx)).writeV _ (congrArg flagByte (congrArg₂ noBorrow hy hx))
  | shr x y =>
    have hop := shiftOperand_congr hr.1 hr.2
    cases h; cases h'
    exact (same.writeV x (congrArg (fun a : Byte => a >>> 1) hop)).writeV _ (congrArg (fun a => flagByte (shiftedOutRight a)) hop)
  | shl x y =>
    have hop := shiftOperand_congr hr.1 hr.2
    cases h; cases h'
    exact (same.writeV x (congrArg (fun a : Byte => a <<< 1) hop)).writeV _ (congrArg (fun a => flagByte (shiftedOutLeft a)) hop)
  | drw x y n =>
    obtain ⟨hx, hy, hindex, hfb, hbytes⟩ := hr
    have hdraw : drawSprite x y n s = drawSprite x y n s' :=
      drawSprite_congr hx hy hfb fun k hk => (hbytes k hk).trans (congrArg _ (indexAddress_congr hindex k))
    cases h; cases h'
    exact (same.writeFb (congrArg Prod.fst hdraw)).writeV _ (congrArg (fun d => flagByte d.2) hdraw)
  | skp x =>
    obtain ⟨hx, hkeys, hpc⟩ := hr
    cases h; cases h'
    exact same.skipIf (keyPressed_keyOperand_congr hx hkeys) hpc
  | sknp x =>
    obtain ⟨hx, hkeys, hpc⟩ := hr
    cases h; cases h'
    exact same.skipIf (congrArg (!·) (keyPressed_keyOperand_congr hx hkeys)) hpc
  | ldVxKey x =>
    obtain ⟨hkeys, hpc⟩ := hr
    cases h; cases h'
    rw [← hkeys]
    split
    · exact same.writePc (congrArg (· - 2#16) hpc)
    · exact same.writeV x rfl
  | ldVxDt x => cases h; cases h'; exact same.writeV x hr
  | ldDtVx x => cases h; cases h'; exact same.writeDt hr
  | ldStVx x => cases h; cases h'; exact same.writeSt hr
  | ldI nnn => cases h; cases h'; exact same.writeIndex rfl
  | ldF x => cases h; cases h'; exact same.writeIndex (congrArg fontAddress hr)
  | addI x =>
    obtain ⟨hindex, hx, hstrap⟩ := hr
    cases h; cases h'
    exact (same.writeIndex (congrArg₂ (fun w (b : Byte) => w + b.setWidth 16) hindex hx)).writeIndexFlag
      (congrArg₂ indexOverflow hindex hx) hstrap
  | ldB x =>
    obtain ⟨hx, hindex⟩ := hr
    cases h; cases h'
    exact same.writeMem (indexAddress_congr hindex 0) (congrArg decimalDigits hx)
  | storeRegs x =>
    obtain ⟨hregs, hindex, hstrap⟩ := hr
    cases h; cases h'
    exact (same.writeMem (indexAddress_congr hindex 0) (registerBlock_congr hregs)).writeIndexPastBlock hindex hstrap x
  | loadRegs x =>
    obtain ⟨hindex, hstrap, hbytes⟩ := hr
    cases h; cases h'
    refine (same.loadRegisters fun k hk => ?_).writeIndexPastBlock hindex hstrap x
    exact (hbytes k (by omega)).trans (congrArg _ (indexAddress_congr hindex k))

end Sys2Proof.Spec

namespace Sys2Proof.Machine

open Sys2Proof.Spec

/-! ### The call stack pointer and the fault latch over an execute phase -/

/-- An execute phase leaves the latch as it was, or it is a CALL or a RET that raised and did nothing else (R106). -/
theorem exec_latch_cases {i : Instr} {s t : State} (h : exec i s = .next t) :
    (t.fault = s.fault ∧ t.faultWord = s.faultWord) ∨
    (∃ nnn, i = .call nnn ∧ s.sp.toNat = stackDepth ∧ t = raise .stackOverflow (encode i) s) ∨
    (i = .ret ∧ s.sp.toNat = 0 ∧ t = raise .stackUnderflow (encode i) s) := by
  cases i with
  | ret =>
    rcases execRet_cases h with ⟨hsp, rfl⟩ | ⟨-, -, rfl⟩
    · exact .inr (.inr ⟨rfl, hsp, rfl⟩)
    · exact .inl ⟨rfl, rfl⟩
  | call nnn =>
    rcases execCall_cases h with ⟨hsp, rfl⟩ | ⟨-, rfl⟩
    · exact .inr (.inl ⟨nnn, rfl, hsp, rfl⟩)
    · exact .inl ⟨rfl, rfl⟩
  | _ =>
    obtain ⟨-, -, -, hlatch, -⟩ := exec_changesOnlyItsColumn h
    exact .inl (hlatch nofun nofun).2

/-- R25: CALL adds 1 below the depth, RET takes 1 off, and no other instruction writes SP. -/
theorem exec_sp_le_stackDepth {i : Instr} {s t : State} (h : exec i s = .next t) (hsp : s.sp.toNat ≤ stackDepth) :
    t.sp.toNat ≤ stackDepth := by
  cases i with
  | ret =>
    rcases execRet_cases h with ⟨-, rfl⟩ | ⟨hpos, -, rfl⟩
    · exact hsp
    · rw [popStack_sp, BitVec.toNat_sub_of_le (by simp [BitVec.le_def]; omega)]
      exact (Nat.sub_le _ _).trans hsp
  | call nnn =>
    rcases execCall_cases h with ⟨-, rfl⟩ | ⟨hlt, rfl⟩
    · exact hsp
    · simp only [stackDepth] at *
      simp only [writePc_sp, pushStack_sp, BitVec.toNat_add, BitVec.toNat_ofNat]
      omega
  | _ =>
    obtain ⟨-, -, -, hlatch, -⟩ := exec_changesOnlyItsColumn h
    rwa [(hlatch nofun nofun).1]

/-- An execute phase of the fetched instruction leaves a clear latch clear, or latches the fetched word with its cause. -/
theorem latchConsistent_exec {i : Instr} {s u : State} (hf : s.fault = .none) (hw : s.faultWord = 0x0000#16)
    (hd : decode (fetch s) = .ok i) (h : exec i (beginStep s) = .next u) : LatchConsistent u := by
  rcases exec_latch_cases h with ⟨hfault, hword⟩ | ⟨nnn, rfl, hsp, rfl⟩ | ⟨rfl, hsp, rfl⟩
  · exact (latchConsistent_none_iff (hfault.trans hf)).2 (hword.trans hw)
  · rw [encode_of_decode_call hd]
    exact (latchConsistent_stackOverflow_iff rfl).2 ⟨(fetchWord_beginStep s).symm, ⟨nnn, hd⟩, hsp⟩
  · rw [encode_of_decode_ret hd]
    exact (latchConsistent_stackUnderflow_iff rfl).2 ⟨(fetchWord_beginStep s).symm, hd, hsp⟩

/-- An illegal word latched is the word that was fetched. -/
theorem latchConsistent_raise_illegal {e : DecodeError} {s : State} (hd : decode (fetch s) = .error e) :
    LatchConsistent (raise .unknownInstruction (fetch s) (beginStep s)) :=
  (latchConsistent_unknownInstruction_iff rfl).2 ⟨(fetchWord_beginStep s).symm, e, hd⟩

/-! ### What every step keeps -/

/-- R50, R55: a step makes at most one store, so memory stays canonical. -/
theorem wf_of_step {s t : State} (h : step s = .next t) (hwf : Memory.wf s.mem) : Memory.wf t.mem := by
  rcases step_mem_cases h with hmem | ⟨a, bytes, hmem⟩
  · exact hmem ▸ hwf
  · exact hmem ▸ wf_writeBytes hwf a bytes

/-- R25: SP stays within the depth of the call stack. -/
theorem sp_le_stackDepth_of_step {s t : State} (h : step s = .next t) (hsp : s.sp.toNat ≤ stackDepth) :
    t.sp.toNat ≤ stackDepth := by
  rcases step_cases h with ⟨-, rfl⟩ | ⟨-, -, rfl⟩ | ⟨-, i, u, -, hu, rfl⟩
  · exact hsp
  · rwa [presentNextInput_sp]
  · rw [presentNextInput_sp]
    exact exec_sp_le_stackDepth hu hsp

/-- R231 to R233: the latch stays consistent, whichever of the three things a step can do it did. -/
theorem latchConsistent_of_step {s t : State} (h : step s = .next t) (hlatch : LatchConsistent s) : LatchConsistent t := by
  rcases step_cases h with ⟨-, rfl⟩ | ⟨-, ⟨e, hd⟩, rfl⟩ | ⟨hf, i, u, hd, hu, rfl⟩
  · exact hlatch
  · exact (latchConsistent_presentNextInput _).2 (latchConsistent_raise_illegal hd)
  · exact (latchConsistent_presentNextInput u).2
      (latchConsistent_exec hf ((latchConsistent_none_iff hf).1 hlatch) hd hu)

/-- A step of a core that runs ends with the host's presenting, from a state that has the straps, the schedule and the draws of the state before. -/
theorem step_ends_presenting {s t : State} (hf : s.fault = .none) (h : step s = .next t) :
    ∃ u, t = presentNextInput u ∧ u.straps = s.straps ∧ u.schedule = s.schedule ∧ u.draws = s.draws := by
  rcases step_cases h with ⟨hne, -⟩ | ⟨-, -, rfl⟩ | ⟨-, i, u, -, hu, rfl⟩
  · exact absurd hf hne
  · exact ⟨_, rfl, rfl, rfl, rfl⟩
  · obtain ⟨-, -, -, -, -, -, -, -, -, -, hstraps, -, hschedule, hdraws⟩ := exec_changesOnlyItsColumn hu
    exact ⟨u, rfl, hstraps, hschedule, hdraws⟩

end Sys2Proof.Machine

namespace Sys2Proof.Proofs.State

open Sys2Proof.Machine Sys2Proof.Spec

/-- Settles O18: each clause of the invariant by the lemma that a step keeps it. -/
theorem invariantKeptByEveryStep : Obligations.InvariantKeptByEveryStep := by
  unfold Obligations.InvariantKeptByEveryStep
  rintro s t ⟨hwf, hsp, hlatch⟩ h
  exact ⟨wf_of_step h hwf, sp_le_stackDepth_of_step h hsp, latchConsistent_of_step h hlatch⟩

/-- Settles O7: each memory lists the cells that read as something other than their unlisted byte, so the two lists have the same members. -/
theorem canonicalMemoriesThatReadAlikeAreEqual : Obligations.CanonicalMemoriesThatReadAlikeAreEqual := by
  unfold Obligations.CanonicalMemoriesThatReadAlikeAreEqual
  intro m m' hfont hwf hwf' hread
  have hcells : m.cells = m'.cells := cells_eq_of_mem_iff hwf.1 hwf'.1 fun ⟨a, b⟩ => by
    rw [mem_cells_iff hwf, mem_cells_iff hwf', hread, hfont]
  cases m
  cases m'
  exact congrArg₂ Memory.mk hfont hcells

/-- Settles O20: the frame of every execute phase. -/
theorem instructionsWriteOnlyTheirColumn : Obligations.InstructionsWriteOnlyTheirColumn := by
  unfold Obligations.InstructionsWriteOnlyTheirColumn
  exact fun i s t h => exec_changesOnlyItsColumn h

/-- Settles O21: equal reads, equal effects, instruction by instruction. -/
theorem instructionsReadOnlyTheirColumn : Obligations.InstructionsReadOnlyTheirColumn := by
  unfold Obligations.InstructionsReadOnlyTheirColumn
  exact fun i s s' t t' hr h h' => exec_sameEffects hr h h'

/-- Settles O22: a halted core is left as it is, and a step of one that runs ends with the straps it began with. -/
theorem strapsHoldForTheRun : Obligations.StrapsHoldForTheRun := by
  unfold Obligations.StrapsHoldForTheRun
  intro s t h
  by_cases hf : s.fault = .none
  · obtain ⟨u, rfl, hstraps, -, -⟩ := step_ends_presenting hf h
    exact (presentNextInput_straps u).trans hstraps
  · cases (step_halted hf).symm.trans h
    rfl

/-- Settles O24: the flag is each instruction's last write, and an instruction whose column does not name VF leaves it. -/
theorem vfIsTheOnlyFlag : Obligations.VfIsTheOnlyFlag := by
  unfold Obligations.VfIsTheOnlyFlag
  constructor
  · intro x y n s
    refine ⟨_, _, _, _, _, _, _, rfl, rfl, rfl, rfl, rfl, rfl, rfl, ?_, ?_, ?_, ?_, ?_, ⟨?_, ?_⟩, ?_⟩
    · simp [carryOfAdd]
    · simp [noBorrow]
    · rw [readV_flag_writeResultAndFlag, shiftedOutRight_toNat, shiftOperand_eq]
    · simp [noBorrow]
    · rw [readV_flag_writeResultAndFlag, shiftedOutLeft_toNat, shiftOperand_eq]
    · rw [readV_writeV_same, flagByte_toNat]
      split <;> decide
    · rw [readV_writeV_same, flagByte_toNat, writeV_fb, writeFb_fb, ← drawSprite_collides_iff]
      simp
    · rw [readV_writeIndexFlag, if_pos rfl]
      simp only [indexOverflow, decide_eq_true_eq, writeIndex_straps, readV_writeIndex]
      split
      · rfl
      · exact apply_ite BitVec.toNat _ _ _
  · intro i s t h hi
    obtain ⟨hv, -⟩ := exec_changesOnlyItsColumn h
    exact hv _ hi

/-- Settles O59: the schedule and the draws reach the end of the step as they were, and there the host takes the head or draws. -/
theorem inputsArePresentedInOrder : Obligations.InputsArePresentedInOrder := by
  unfold Obligations.InputsArePresentedInOrder
  intro s t hf h
  obtain ⟨u, rfl, -, hschedule, hdraws⟩ := step_ends_presenting hf h
  constructor
  · intro j rest hlisted
    rw [presentNextInput_of_listed (hschedule.trans hlisted)]
    exact ⟨rfl, rfl, hdraws⟩
  · intro hnone
    rw [presentNextInput_of_unlisted (hschedule.trans hnone), hdraws]
    exact ⟨rfl, hschedule.trans hnone, rfl⟩

/-- Settles O17: above the depth both tests of CALL and of RET fail. -/
theorem stackPointerBeyondCapacityStops : Obligations.StackPointerBeyondCapacityStops := by
  unfold Obligations.StackPointerBeyondCapacityStops
  intro s nnn hsp
  have hfull : s.sp.toNat ≠ stackDepth := hsp.ne'
  have hroom : ¬ s.sp.toNat < stackDepth := hsp.not_gt
  have hempty : s.sp.toNat ≠ 0 := by omega
  have hdepth : ¬ s.sp.toNat ≤ stackDepth := hsp.not_ge
  constructor
  · rw [exec, execCall, if_neg hfull, if_neg hroom]
  · rw [exec, execRet, if_neg hempty, if_neg hdepth]

/-- Settles O19: memory lists no cell, SP is 0, and the clear latch holds the word 0. -/
theorem invariantHoldsAtReset : Obligations.InvariantHoldsAtReset := by
  unfold Obligations.InvariantHoldsAtReset
  exact ⟨wf_nil _, Nat.zero_le _, rfl⟩

/-- Settles O25: the registers of reset read out, and its memory, which lists no cell, outside the font and in it. -/
theorem resetState : Obligations.ResetState := by
  unfold Obligations.ResetState
  refine ⟨rfl, rfl, rfl, fun r => ?_, fun k => ?_, rfl, rfl, cell_cleared, rfl, rfl, rfl, fun a ha => ?_, fun k hk => ?_⟩
  · simp [State.readV, State.reset]
  · simp [State.readStack, State.reset]
  · have hlt : a < memSize := by simp only [memSize]; omega
    rw [State.reset, read_nil, Nat.mod_eq_of_lt hlt, unlistedByte_outside _ (by omega)]
  · have hlt : 0x050 + k < memSize := by simp only [memSize]; omega
    rw [State.reset, read_nil, Nat.mod_eq_of_lt hlt, unlistedByte_font _ k hk]

end Sys2Proof.Proofs.State
end

section
/-! The memory family (spec/20_memory.md R62): what is read where Fx55 has stored. -/

namespace Sys2Proof.Machine

/-- R175: after Fx55 the byte at offset `k` from the old I reads as V[k]; the block of at most sixteen bytes does not lap the memory. -/
theorem read_storeRegs {x : Nibble} {s t : State} (h : exec (.storeRegs x) s = .next t) {k : Nat} (hk : k ≤ x.toNat) :
    Memory.read t.mem (indexAddress s k) = s.readV (BitVec.ofNat 4 k) := by
  have hlen : (registerBlock s x).length ≤ memSize := by
    rw [registerBlock_length, memSize]
    omega
  have hin : k < (registerBlock s x).length := by
    rw [registerBlock_length]
    omega
  calc Memory.read t.mem (indexAddress s k)
      = Memory.read (Memory.writeBytes s.mem (indexAddress s 0) (registerBlock s x)) (indexAddress s 0 + k) := by
        rw [exec_mem h]
        rfl
    _ = (registerBlock s x)[k] := read_writeBytes_inside _ _ _ hlen k hin
    _ = s.readV (BitVec.ofNat 4 k) := registerBlock_getElem s x k hin

end Sys2Proof.Machine

namespace Sys2Proof.Proofs.Memory

open Sys2Proof.Machine

/-- Settles O8: the two bytes of the fetch are the bytes at offsets `k` and `k + 1` of the stored block. -/
theorem storedBytesAreFetched : Obligations.StoredBytesAreFetched := by
  unfold Obligations.StoredBytesAreFetched
  intro x s t h k hk
  have hhigh : Memory.read t.mem (s.index.toNat + k) = s.readV (BitVec.ofNat 4 k) := read_storeRegs h hk.le
  have hlow : Memory.read t.mem (s.index.toNat + k + 1) = s.readV (BitVec.ofNat 4 (k + 1)) := read_storeRegs h hk
  rw [Memory.fetchWord, hhigh, hlow]

end Sys2Proof.Proofs.Memory
end

section
/-! The encoding family (spec/30_encoding.md): the two round trips of R82, the tests of R74 and the words of R75. -/

namespace Sys2Proof

/-! ### Fields as numbers (R71) -/

section Fields

variable (w : Word)

theorem toNat_fieldN1 : (fieldN1 w).toNat = w.toNat / 0x1000 := by
  have hw : w.toNat < 2 ^ 16 := w.isLt
  simp only [fieldN1, BitVec.extractLsb'_toNat, Nat.shiftRight_eq_div_pow]
  omega

theorem toNat_fieldN : (fieldN w).toNat = w.toNat % 0x10 := rfl

theorem toNat_fieldNN : (fieldNN w).toNat = w.toNat % 0x100 := rfl

end Fields

/-! ### The tests of the families (R74): each arm of a family's decoder answers at one value of the field it tests -/

section Families

variable (w : Word)

theorem decodeFamily0_accepts_iff : (∃ i, decodeFamily0 w = .ok i) ↔ w = 0x00E0#16 ∨ w = 0x00EE#16 := by
  unfold decodeFamily0
  split
  · simp_all
  · split <;> simp_all

theorem decodeFamily8_accepts_iff :
    (∃ i, decodeFamily8 w = .ok i) ↔ (fieldN w).toNat ∈ [0x0, 0x1, 0x2, 0x3, 0x4, 0x5, 0x6, 0x7, 0xE] := by
  unfold decodeFamily8
  split <;> simp_all

theorem decodeFamilyE_accepts_iff : (∃ i, decodeFamilyE w = .ok i) ↔ (fieldNN w).toNat ∈ [0x9E, 0xA1] := by
  unfold decodeFamilyE
  split <;> simp_all

theorem decodeFamilyF_accepts_iff :
    (∃ i, decodeFamilyF w = .ok i) ↔ (fieldNN w).toNat ∈ [0x07, 0x0A, 0x15, 0x18, 0x1E, 0x29, 0x33, 0x55, 0x65] := by
  unfold decodeFamilyF
  split <;> simp_all

end Families

/-! ### A word from the fields its decoder tested -/

section Words

variable {w : Word} {f x y n : Nibble} {nn : Byte} {i : Instr}

theorem packNNN_of_family (hf : (fieldN1 w).toNat = f.toNat) : packNNN f (fieldNNN w) = w := by
  rw [← BitVec.eq_of_toNat_eq hf, packNNN_fields]

theorem packXNN_of_family (hf : (fieldN1 w).toNat = f.toNat) : packXNN f (fieldX w) (fieldNN w) = w := by
  rw [← BitVec.eq_of_toNat_eq hf, packXNN_fields]

theorem packXNN_of_lowByte (hf : (fieldN1 w).toNat = f.toNat) (hnn : (fieldNN w).toNat = nn.toNat) :
    packXNN f (fieldX w) nn = w := by
  rw [← BitVec.eq_of_toNat_eq hnn, packXNN_of_family hf]

theorem packXYN_of_family (hf : (fieldN1 w).toNat = f.toNat) : packXYN f (fieldX w) (fieldY w) (fieldN w) = w := by
  rw [← BitVec.eq_of_toNat_eq hf, packXYN_fields]

theorem packXYN_of_lastNibble (hf : (fieldN1 w).toNat = f.toNat) (hn : (fieldN w).toNat = n.toNat) :
    packXYN f (fieldX w) (fieldY w) n = w := by
  rw [← BitVec.eq_of_toNat_eq hn, packXYN_of_family hf]

/-! ### The encoding of what each family reads -/

theorem encode_of_decodeFamily0 (h : decodeFamily0 w = .ok i) : encode i = w := by
  unfold decodeFamily0 at h
  split at h
  case isTrue hcls => cases h; exact hcls.symm
  case isFalse =>
    split at h
    case isTrue hret => cases h; exact hret.symm
    case isFalse => cases h

theorem encode_of_decodeFamily8 (hf : (fieldN1 w).toNat = 0x8) (h : decodeFamily8 w = .ok i) : encode i = w := by
  unfold decodeFamily8 at h
  split at h
  case h_10 => cases h
  all_goals
    next hn =>
      cases h
      exact packXYN_of_lastNibble hf hn

theorem encode_of_decodeFamilyE (hf : (fieldN1 w).toNat = 0xE) (h : decodeFamilyE w = .ok i) : encode i = w := by
  unfold decodeFamilyE at h
  split at h
  case h_3 => cases h
  all_goals
    next hnn =>
      cases h
      exact packXNN_of_lowByte hf hnn

theorem encode_of_decodeFamilyF (hf : (fieldN1 w).toNat = 0xF) (h : decodeFamilyF w = .ok i) : encode i = w := by
  unfold decodeFamilyF at h
  split at h
  case h_10 => cases h
  all_goals
    next hnn =>
      cases h
      exact packXNN_of_lowByte hf hnn

end Words

/-! ### The formats of R72 as the instruction rules write them -/

section Formats

open Sys2Proof.Spec

variable (f x y n : Nibble) (nn : Byte)

/-- The fixed low byte of format `XKK` may stand in the base word. -/
theorem packXNN_eq_wordX : packXNN f x nn = wordX (f.setWidth 16 <<< 12 ||| nn.setWidth 16) x := by
  simp only [packXNN, wordX]
  ac_rfl

/-- The fixed last nibble of format `XY` may stand in the base word. -/
theorem packXYN_eq_wordXY : packXYN f x y n = wordXY (f.setWidth 16 <<< 12 ||| n.setWidth 16) x y := by
  simp only [packXYN, wordXY]
  ac_rfl

end Formats

end Sys2Proof

namespace Sys2Proof.Proofs.Encoding

open Sys2Proof.Spec

/-- Settles O1: the fields read back from an encoding's format are those it was packed from, so the decoder's tests select the constructor. -/
theorem decodeOfEncode : Obligations.DecodeOfEncode := by
  unfold Obligations.DecodeOfEncode
  intro i _
  cases i with
  | cls | ret => rfl
  | jp | call | ldI | jpV0 => simp [encode, decode]
  | seImm | sneImm | ldImm | addImm | rnd => simp [encode, decode]
  | seReg | sneReg | drw => simp [encode, decode]
  | ldReg | orReg | andReg | xorReg | addReg | subReg | shr | subn | shl => simp [encode, decode, decodeFamily8]
  | skp | sknp => simp [encode, decode, decodeFamilyE]
  | ldVxDt | ldVxKey | ldDtVx | ldStVx | addI | ldF | ldB | storeRegs | loadRegs =>
    simp [encode, decode, decodeFamilyF]

/-- Settles O2: the word is its family's nibble and the fields read from it, and where the family makes a second test, the bits tested. -/
theorem encodeOfDecode : Obligations.EncodeOfDecode := by
  unfold Obligations.EncodeOfDecode
  intro w i h
  unfold decode at h
  split at h
  case h_1 => exact encode_of_decodeFamily0 h
  case h_2 hf | h_3 hf | h_11 hf | h_12 hf => cases h; exact packNNN_of_family hf
  case h_4 hf | h_5 hf | h_7 hf | h_8 hf | h_13 hf => cases h; exact packXNN_of_family hf
  case h_6 hf | h_10 hf =>
    split at h
    case isTrue hn => cases h; exact packXYN_of_lastNibble hf (congrArg BitVec.toNat hn)
    case isFalse => cases h
  case h_9 hf => exact encode_of_decodeFamily8 hf h
  case h_14 hf => cases h; exact packXYN_of_family hf
  case h_15 hf => exact encode_of_decodeFamilyE hf h
  case h_16 =>
    have hlt : (fieldN1 w).toNat < 16 := (fieldN1 w).isLt
    have hf : (fieldN1 w).toNat = 0xF := by
      simp only [imp_false] at *
      omega
    exact encode_of_decodeFamilyF hf h

/-- Settles O3: the tests of R74 are those of the family decoders, so the two sides agree family by family. -/
theorem legalWordsAreTheTables : Obligations.LegalWordsAreTheTables := by
  unfold Obligations.LegalWordsAreTheTables
  intro w
  simp only [legalWord, ← toNat_fieldN1, ← toNat_fieldN, ← toNat_fieldNN,
    ← decodeFamily0_accepts_iff, ← decodeFamily8_accepts_iff, ← decodeFamilyE_accepts_iff, ← decodeFamilyF_accepts_iff]
  unfold decode
  split
  case h_6 hf | h_10 hf =>
    rw [hf]
    split <;> simp_all [← BitVec.toNat_inj]
  case h_16 =>
    have hlt : (fieldN1 w).toNat < 16 := (fieldN1 w).isLt
    have hf : (fieldN1 w).toNat = 0xF := by
      simp only [imp_false] at *
      omega
    simp [hf]
  all_goals
    next hf => simp [hf]

/-- Settles O4: a base word of the rules is the family's nibble with the fixed low bits; where these stand after the operands, the fields commute. -/
theorem encodingsOfTheOpcodeMap : Obligations.EncodingsOfTheOpcodeMap := by
  unfold Obligations.EncodingsOfTheOpcodeMap
  refine ⟨rfl, rfl, fun nnn => ⟨rfl, rfl, rfl, rfl⟩, fun x nn => ⟨rfl, rfl, rfl, rfl, rfl⟩, fun x y => ?_, fun x y n => rfl,
    fun x => ?_⟩
  · refine ⟨?_, ?_, ?_, ?_, ?_, ?_, ?_, ?_, ?_, ?_, ?_⟩ <;> exact packXYN_eq_wordXY _ x y _
  · refine ⟨?_, ?_, ?_, ?_, ?_, ?_, ?_, ?_, ?_, ?_, ?_⟩ <;> exact packXNN_eq_wordX _ x _

/-- Settles O5: each word is laid out in memory order and decoded by evaluation. -/
theorem wordsOfTheSpecDecode : Obligations.WordsOfTheSpecDecode := by
  unfold Obligations.WordsOfTheSpecDecode
  decide

end Sys2Proof.Proofs.Encoding
end

section
/-! The step cycle family (spec/40_step_cycle.md R100 to R109): fetch, what every step of a running core does, the faults of the execute phase, and the end of a run. -/

namespace Sys2Proof

/-- A 16-bit word is its own table word. -/
@[simp] theorem tableWord_toNat (w : Word) : tableWord 16 w.toNat = w := by
  rw [tableWord, Nat.mod_eq_of_lt w.isLt, BitVec.ofNat_toNat, BitVec.setWidth_eq]

end Sys2Proof

namespace Sys2Proof.Machine

open Sys2Proof.Spec

/-! ### Fetch (R102) -/

/-- The cell at PC modulo 4096 is the high byte of the word fetched, the next cell modulo 4096 the low byte. -/
theorem toNat_fetch (s : State) :
    (fetch s).toNat =
      (Memory.cell s.mem (s.pc.toNat % memSize)).toNat * 256 + (Memory.cell s.mem ((s.pc.toNat + 1) % memSize)).toNat :=
  toNat_wordOfBytes _ _

/-- R53: a word stored high byte first is fetched from where it is stored. -/
theorem fetchWord_writeBytes_word (m : Memory) (a : Nat) (w : Word) :
    Memory.fetchWord (Memory.writeBytes m a [wordHi w, wordLo w]) a = w := by
  have hlen : [wordHi w, wordLo w].length ≤ memSize := by simp [memSize]
  have hhigh : Memory.read (Memory.writeBytes m a [wordHi w, wordLo w]) a = wordHi w :=
    read_writeBytes_inside m a _ hlen 0 (by simp)
  have hlow : Memory.read (Memory.writeBytes m a [wordHi w, wordLo w]) (a + 1) = wordLo w :=
    read_writeBytes_inside m a _ hlen 1 (by simp)
  rw [Memory.fetchWord, hhigh, hlow, wordOfBytes_wordHi_wordLo]

theorem withFetchWord_eq (s : State) (w : Word) : s.withFetchWord 16 w.toNat = placeWord w s := by
  rw [State.withFetchWord, tableWord_toNat]

/-! ### The host's presenting (R32, R107) -/

/-- The host's presenting changes the model's own input fields alone. -/
theorem presentNextInput_frame (s : State) :
    presentNextInput s = { s with
      input := (presentNextInput s).input
      schedule := (presentNextInput s).schedule
      draws := (presentNextInput s).draws } := by
  cases h : s.schedule with
  | nil => rw [presentNextInput_of_unlisted h]
  | cons j rest => rw [presentNextInput_of_listed h]

/-! ### A step of a core that runs, by what its word decodes to (R103 to R106) -/

section Running

variable {s t : State}

theorem step_of_decode_ok {i : Instr} (hf : s.fault = .none) (hd : decode (fetch s) = .ok i) :
    step s = onNext presentNextInput (exec i (beginStep s)) := by
  rw [step_running hf, decodeAndExecute_ok hd]

theorem step_of_decode_error {e : DecodeError} (hf : s.fault = .none) (hd : decode (fetch s) = .error e) :
    step s = .next (presentNextInput (raise .unknownInstruction (fetch s) (beginStep s))) := by
  rw [step_running hf, decodeAndExecute_error hd, onNext_next]

/-- A step that answers ends with the host's presenting after the execute phase of the instruction it fetched. -/
theorem exec_of_step {i : Instr} (hf : s.fault = .none) (h : step s = .next t) (hd : decode (fetch s) = .ok i) :
    ∃ u, exec i (beginStep s) = .next u ∧ t = presentNextInput u :=
  onNext_eq_next.mp ((step_of_decode_ok hf hd).symm.trans h)

/-- R100: with SP in its range a step answers, whether the core is halted, the word is illegal, or an instruction runs. -/
theorem step_answers_of_sp (hsp : s.sp.toNat ≤ stackDepth) : ∃ t, step s = .next t := by
  by_cases hf : s.fault = .none
  · cases hd : decode (fetch s) with
    | error e => exact ⟨_, step_of_decode_error hf hd⟩
    | ok i =>
      obtain ⟨u, hu⟩ := exec_answers_of_sp i (beginStep s) hsp
      exact ⟨presentNextInput u, by rw [step_of_decode_ok hf hd, hu, onNext_next]⟩
  · exact ⟨s, step_halted hf⟩

/-! ### The timers and PC over a step -/

/-- R104: unless the step executes Fx15, DT ends as the timer update left it, a raised fault included. -/
theorem dt_of_step (hf : s.fault = .none) (h : step s = .next t) (hi : ∀ x, decode (fetch s) ≠ .ok (.ldDtVx x)) :
    t.dt = decrementTimer s.dt s.input.elapsedTicks := by
  rcases step_cases h with ⟨hne, -⟩ | ⟨-, -, rfl⟩ | ⟨-, i, u, hd, hu, rfl⟩
  · exact absurd hf hne
  · exact presentNextInput_dt _
  · obtain ⟨-, -, -, -, -, hdt, -⟩ := exec_changesOnlyItsColumn hu
    exact (presentNextInput_dt u).trans (hdt fun x hx => hi x (hx ▸ hd))

/-- R104: unless the step executes Fx18, ST ends as the timer update left it, a raised fault included. -/
theorem st_of_step (hf : s.fault = .none) (h : step s = .next t) (hi : ∀ x, decode (fetch s) ≠ .ok (.ldStVx x)) :
    t.st = decrementTimer s.st s.input.elapsedTicks := by
  rcases step_cases h with ⟨hne, -⟩ | ⟨-, -, rfl⟩ | ⟨-, i, u, hd, hu, rfl⟩
  · exact absurd hf hne
  · exact presentNextInput_st _
  · obtain ⟨-, -, -, -, -, -, hst, -⟩ := exec_changesOnlyItsColumn hu
    exact (presentNextInput_st u).trans (hst fun x hx => hi x (hx ▸ hd))

/-- An execute phase that is not of a PC writer leaves PC, and so does one that raises (R106). -/
theorem exec_pc {i : Instr} (h : exec i s = .next t) (hi : ¬ writesPc i ∨ t.fault ≠ s.fault) : t.pc = s.pc := by
  rcases hi with hi | hraised
  · obtain ⟨-, hpc, -⟩ := exec_changesOnlyItsColumn h
    exact hpc hi
  · rcases exec_latch_cases h with ⟨hsame, -⟩ | ⟨-, -, -, rfl⟩ | ⟨-, -, rfl⟩
    · exact absurd hsame hraised
    · rfl
    · rfl

/-- R103: the advance stands in a step that faults and in one whose instruction does not write PC. -/
theorem pc_of_step (hf : s.fault = .none) (h : step s = .next t)
    (hi : (∀ i, decode (fetch s) = .ok i → ¬ writesPc i) ∨ t.fault ≠ .none) : t.pc = s.pc + 2#16 := by
  rcases step_cases h with ⟨hne, -⟩ | ⟨-, -, rfl⟩ | ⟨-, i, u, hd, hu, rfl⟩
  · exact absurd hf hne
  · exact presentNextInput_pc _
  · rw [presentNextInput_fault] at hi
    have hkept : ¬ writesPc i ∨ u.fault ≠ (beginStep s).fault := hi.imp (· i hd) (hf ▸ ·)
    exact (presentNextInput_pc u).trans (exec_pc hu hkept)

end Running

/-! ### The ends of a run: a halted core (R101), and a jump to itself (R109) -/

/-- R234: no number of steps moves a halted core. -/
theorem run_halted {s : State} (h : s.fault ≠ .none) (k : Nat) : core.run k s = .next s := by
  induction k with
  | zero => rfl
  | succ k ih => exact (run_succ (step_halted h) k).trans ih

/-- All that a step of a program that is done may change (R109): the timers and the host's inputs. -/
def sameButTimersAndInputs (s t : State) : Prop :=
  t = { s with dt := t.dt, st := t.st, input := t.input, schedule := t.schedule, draws := t.draws }

theorem sameButTimersAndInputs.trans {s t u : State} (hst : sameButTimersAndInputs s t)
    (htu : sameButTimersAndInputs t u) : sameButTimersAndInputs s u := by
  refine Eq.trans htu ?_
  rw [hst]

/-- R109: the latch, PC and memory say whether a core is done; the timers and the inputs do not. -/
theorem doneAt_congr {nnn : Addr12} {s t : State} (h : sameButTimersAndInputs s t) : doneAt nnn t ↔ doneAt nnn s := by
  rw [h]
  rfl

/-- The jump puts the advanced PC back (R103, R122), so what a step leaves changed is the timers and the inputs. -/
theorem step_of_doneAt {nnn : Addr12} {s : State} (h : doneAt nnn s) :
    ∃ t, step s = .next t ∧ doneAt nnn t ∧ sameButTimersAndInputs s t := by
  have ⟨hf, hpc, hword⟩ := h
  have hd : decode (fetch s) = .ok (.jp nnn) := hword ▸ Proofs.Encoding.decodeOfEncode (.jp nnn) rfl
  have hframe : sameButTimersAndInputs s (presentNextInput ((beginStep s).writePc (addressOperand nnn))) := by
    refine (presentNextInput_frame _).trans ?_
    rw [← hpc]
    simp only [presentNextInput_dt, presentNextInput_st]
    rfl
  exact ⟨_, step_of_decode_ok hf hd, (doneAt_congr hframe).2 h, hframe⟩

theorem run_of_doneAt {nnn : Addr12} {s : State} (h : doneAt nnn s) (k : Nat) :
    ∃ t, core.run k s = .next t ∧ doneAt nnn t ∧ sameButTimersAndInputs s t := by
  induction k generalizing s with
  | zero => exact ⟨s, rfl, h, rfl⟩
  | succ k ih =>
    obtain ⟨u, hu, hdone, hframe⟩ := step_of_doneAt h
    obtain ⟨t, ht, hdone', hframe'⟩ := ih hdone
    exact ⟨t, (run_succ hu k).trans ht, hdone', hframe.trans hframe'⟩

end Sys2Proof.Machine

namespace Sys2Proof.Proofs.StepCycle

open Sys2Proof.Machine Sys2Proof.Spec

/-- Settles O10: a step answers because the execute phases of CALL and RET do while SP is in its range. -/
theorem stepAlwaysAnswers : Obligations.StepAlwaysAnswers := by
  unfold Obligations.StepAlwaysAnswers
  exact fun s hsp => step_answers_of_sp hsp

/-- Settles O11: by induction on the number of steps. -/
theorem haltedCoreStaysAsItIs : Obligations.HaltedCoreStaysAsItIs := by
  unfold Obligations.HaltedCoreStaysAsItIs
  exact fun s k h => run_halted h k

/-- Settles O12: the update comes before the execute phase, which moves DT and ST in their own writes alone. -/
theorem timersFallByElapsedTicks : Obligations.TimersFallByElapsedTicks := by
  unfold Obligations.TimersFallByElapsedTicks
  intro s t hf h
  refine ⟨fun hi => ?_, fun hi => ?_, fun x hd => ?_, fun x hd => ?_, fun x hd => ?_⟩
  · rw [dt_of_step hf h hi, decrementTimer_toNat]
  · rw [st_of_step hf h hi, decrementTimer_toNat]
  all_goals
    obtain ⟨u, hu, rfl⟩ := exec_of_step hf h hd
    cases hu
  · exact presentNextInput_dt _
  · exact presentNextInput_st _
  · rw [readV_presentNextInput, readV_writeV_same, beginStep_dt, decrementTimer_toNat]

/-- Settles O13: the advance read as a number. -/
theorem pcAdvancesByTwo : Obligations.PcAdvancesByTwo := by
  unfold Obligations.PcAdvancesByTwo
  intro s t hf h hi
  rw [pc_of_step hf h hi, BitVec.toNat_add]
  rfl

/-- Settles O14: an execute phase that moves the latch is a CALL or a RET that raised; a word that is no instruction is an error of the decoder. -/
theorem onlyCallAndReturnRaise : Obligations.OnlyCallAndReturnRaise := by
  unfold Obligations.OnlyCallAndReturnRaise
  constructor
  · intro i s t h hmoved
    rcases exec_latch_cases h with ⟨hfault, hword⟩ | ⟨nnn, hi, hsp, ht⟩ | ⟨hi, hsp, ht⟩
    · exact absurd hmoved (by simp [hfault, hword])
    · exact .inl ⟨⟨nnn, hi⟩, hsp, ht⟩
    · exact .inr ⟨hi, hsp, ht⟩
  · intro w s hillegal
    cases hd : decode w with
    | error e => exact decodeAndExecute_error hd s
    | ok i => exact absurd hd (hillegal i)

/-- Settles O34: being done is read off the state, and each step of a run puts PC back on the jump. -/
theorem jumpToSelfStands : Obligations.JumpToSelfStands := by
  unfold Obligations.JumpToSelfStands
  intro s nnn
  refine ⟨?_, fun h => ⟨step_of_doneAt h, run_of_doneAt h⟩⟩
  rw [← addressOperand_toNat nnn, BitVec.toNat_inj]
  rfl

/-- Settles O6: a byte is below 256, so the two bytes are the quotient and the remainder. -/
theorem fetchIsBigEndianAndWraps : Obligations.FetchIsBigEndianAndWraps := by
  unfold Obligations.FetchIsBigEndianAndWraps
  intro s
  have hlow : (Memory.cell s.mem ((s.pc.toNat + 1) % 4096)).toNat < 256 := BitVec.isLt _
  rw [toNat_fetch, memSize]
  omega

/-- Settles O9: the state after PC + 2 and the timer update is `beginStep`, and the word selects the case. -/
theorem stepRunsTheDecodedInstruction : Obligations.StepRunsTheDecodedInstruction := by
  unfold Obligations.StepRunsTheDecodedInstruction
  intro s
  refine ⟨step_halted, ?_, presentNextInput_frame s⟩
  rintro hf u rfl
  exact ⟨fun i hd => step_of_decode_ok hf hd, fun e hd => step_of_decode_error hf hd⟩

/-- Settles O27: the two bytes stored at PC are the ones fetched, and a store changes the listed cells alone. -/
theorem placedWordIsFetched : Obligations.PlacedWordIsFetched := by
  unfold Obligations.PlacedWordIsFetched
  intro s w
  rw [withFetchWord_eq]
  refine ⟨fetchWord_writeBytes_word s.mem s.pc.toNat w, rfl, ?_, fun a hhigh hlow => ?_⟩
  · exact congrArg (fun m => { s with mem := m, fault := .none }) (writeBytes_eq _ _ _)
  · refine read_writeBytes_outside _ _ _ _ fun k hk => ?_
    match k, hk with
    | 0, _ => exact hhigh.symm
    | 1, _ => exact hlow.symm

end Sys2Proof.Proofs.StepCycle
end

section
/-! The control flow family (spec/41_control_flow.md R120 to R128): the call and the return, the two jumps and the register skips. -/

namespace Sys2Proof.Machine

/-! ### CALL and RET, by where SP stands (R121, R123) -/

section Stack

variable {s : State}

theorem exec_call_of_full (nnn : Addr12) (h : s.sp.toNat = stackDepth) :
    exec (.call nnn) s = .next (raise .stackOverflow (encode (.call nnn)) s) :=
  if_pos h

theorem exec_call_of_room (nnn : Addr12) (h : s.sp.toNat < stackDepth) :
    exec (.call nnn) s = .next ((s.pushStack s.pc).writePc (addressOperand nnn)) :=
  (if_neg h.ne).trans (if_pos h)

theorem exec_ret_of_empty (h : s.sp.toNat = 0) : exec .ret s = .next (raise .stackUnderflow (encode .ret) s) :=
  if_pos h

theorem exec_ret_of_nonempty (hpos : 0 < s.sp.toNat) (hsp : s.sp.toNat ≤ stackDepth) : exec .ret s = .next s.popStack :=
  (if_neg hpos.ne').trans (if_pos hsp)

/-! ### SP and the entry it names, as numbers (R25) -/

/-- Below the depth the five bits of SP name a stack entry in four. -/
theorem eq_top_iff (h : s.sp.toNat < stackDepth) (k : Nibble) : k = s.sp.setWidth 4 ↔ k.toNat = s.sp.toNat := by
  rw [← BitVec.toNat_inj, BitVec.toNat_setWidth, Nat.mod_eq_of_lt (show s.sp.toNat < 2 ^ 4 from h)]

theorem toNat_sp_pushStack (h : s.sp.toNat < stackDepth) (w : Word) : (s.pushStack w).sp.toNat = s.sp.toNat + 1 := by
  simp only [stackDepth] at h
  rw [pushStack_sp, BitVec.toNat_add, BitVec.toNat_ofNat]
  omega

theorem toNat_sp_popStack (h : 0 < s.sp.toNat) : s.popStack.sp.toNat + 1 = s.sp.toNat := by
  have hle : 1#5 ≤ s.sp := h
  rw [popStack_sp, BitVec.toNat_sub_of_le hle]
  exact Nat.sub_add_cancel h

/-- R25: a pop takes the entry just below SP. -/
theorem popStack_pc_of_below {k : Nibble} (h : k.toNat + 1 = s.sp.toNat) : s.popStack.pc = s.readStack k := by
  have hk : s.popStack.sp.toNat = k.toNat := by
    have := toNat_sp_popStack (s := s) (by omega)
    omega
  have hentry : s.popStack.sp.setWidth 4 = k := by
    rw [← BitVec.toNat_inj, BitVec.toNat_setWidth, hk, Nat.mod_eq_of_lt k.isLt]
  exact congrArg s.readStack hentry

/-- R25: a pop takes back what a push put on the stack, whatever PC was set to in between; the entry stays in storage. -/
theorem popStack_writePc_pushStack (s : State) (w a : Word) :
    ((s.pushStack w).writePc a).popStack = { s with pc := w, stack := (s.pushStack w).stack } := by
  have hsp : ((s.pushStack w).writePc a).popStack.sp = s.sp := BitVec.add_sub_cancel _ _
  have hpc : ((s.pushStack w).writePc a).popStack.pc = w := by
    rw [popStack_pc, ← popStack_sp, hsp, readStack_writePc, readStack_pushStack, if_pos rfl]
  calc ((s.pushStack w).writePc a).popStack
      = { s with
          pc := ((s.pushStack w).writePc a).popStack.pc
          sp := ((s.pushStack w).writePc a).popStack.sp
          stack := (s.pushStack w).stack } := rfl
    _ = { s with pc := w, stack := (s.pushStack w).stack } := by rw [hpc, hsp]

end Stack

/-! ### The offset of Bnnn (R81, R128) -/

/-- `ir[11:8]` is the quotient of `nnn` by 256. -/
theorem topNibble_eq (nnn : Addr12) : nnn.extractLsb' 8 4 = BitVec.ofNat 4 (nnn.toNat / 256) := by
  rw [← BitVec.toNat_inj, BitVec.extractLsb'_toNat, Nat.shiftRight_eq_div_pow, BitVec.toNat_ofNat]

theorem jumpOffset_eq (s : State) (nnn : Addr12) :
    jumpOffset s nnn = if s.straps.qJumpVx then s.readV (BitVec.ofNat 4 (nnn.toNat / 256)) else s.readV 0#4 := by
  rw [jumpOffset, topNibble_eq]

/-- A 12-bit address plus a byte stays below 2^16, so the sum is whole. -/
theorem toNat_addressOperand_add (nnn : Addr12) (b : Byte) :
    (addressOperand nnn + b.setWidth 16).toNat = nnn.toNat + b.toNat := by
  have hnnn : nnn.toNat < 2 ^ 12 := nnn.isLt
  have hb : b.toNat < 2 ^ 8 := b.isLt
  rw [BitVec.toNat_add, addressOperand_toNat, BitVec.toNat_setWidth]
  omega

/-! ### The comparisons of the skips (R120) -/

theorem skipIf_beq (a b : Byte) (s : State) :
    skipIf (a == b) s = if a.toNat = b.toNat then s.writePc (s.pc + 2#16) else s := by
  simp only [skipIf, beq_iff_eq, BitVec.toNat_inj]

theorem skipIf_bne (a b : Byte) (s : State) :
    skipIf (a != b) s = if a.toNat = b.toNat then s else s.writePc (s.pc + 2#16) := by
  simp only [skipIf, bne_iff_ne, ne_eq, ite_not, BitVec.toNat_inj]

end Sys2Proof.Machine

namespace Sys2Proof.Proofs.ControlFlow

open Sys2Proof.Machine Sys2Proof.Spec

/-- Settles O29: at the depth CALL raises; below it SP names a stack entry, and the push writes that one. -/
theorem callPushesAndJumps : Obligations.CallPushesAndJumps := by
  unfold Obligations.CallPushesAndJumps
  intro nnn s
  refine ⟨rfl, fun hfull => exec_call_of_full nnn hfull, fun hroom => ?_⟩
  refine ⟨_, exec_call_of_room nnn hroom, addressOperand_toNat nnn, toNat_sp_pushStack hroom s.pc, fun k => ?_, rfl⟩
  rw [readStack_writePc, readStack_pushStack]
  simp only [eq_top_iff hroom]

/-- Settles O30: with SP at 0 RET raises; above it, up to the depth, it pops the entry just below SP. -/
theorem returnPopsIntoPc : Obligations.ReturnPopsIntoPc := by
  unfold Obligations.ReturnPopsIntoPc
  intro s
  refine ⟨rfl, fun hempty => exec_ret_of_empty hempty, fun hpos hsp => ?_⟩
  exact ⟨_, exec_ret_of_nonempty hpos hsp, toNat_sp_popStack hpos, fun k hk => popStack_pc_of_below hk, rfl⟩

/-- Settles O31: the call left SP from 1 to 16, so the return pops, and it pops what was pushed. -/
theorem returnUndoesCall : Obligations.ReturnUndoesCall := by
  unfold Obligations.ReturnUndoesCall
  intro nnn s t hroom h
  cases (exec_call_of_room nnn hroom).symm.trans h
  have hsp := toNat_sp_pushStack hroom s.pc
  have hret := exec_ret_of_nonempty (s := (s.pushStack s.pc).writePc (addressOperand nnn))
    (hsp ▸ Nat.succ_pos _) (hsp ▸ hroom)
  rw [popStack_writePc_pushStack] at hret
  exact ⟨_, hret, rfl, rfl, rfl⟩

/-- Settles O33: the strap chooses the register, and the sum does not wrap. -/
theorem jumpWithOffset : Obligations.JumpWithOffset := by
  unfold Obligations.JumpWithOffset
  intro nnn s
  refine ⟨_, rfl, rfl, ?_⟩
  rw [writePc_pc, toNat_addressOperand_add, jumpOffset_eq]

/-- Settles O28: PC becomes the zero-extended address. -/
theorem jumpWritesPc : Obligations.JumpWritesPc := by
  unfold Obligations.JumpWritesPc
  exact fun nnn s => ⟨rfl, _, rfl, addressOperand_toNat nnn, rfl⟩

/-- Settles O32: each skip is `skipIf` of its comparison, and the state past the next instruction is one for all four. -/
theorem registerSkips : Obligations.RegisterSkips := by
  unfold Obligations.RegisterSkips
  intro x y nn s
  refine ⟨rfl, rfl, packXYN_eq_wordXY _ x y _, packXYN_eq_wordXY _ x y _, s.writePc (s.pc + 2#16), rfl,
    BitVec.toNat_add _ _, ?_, ?_, ?_, ?_⟩
  · exact congrArg _ (skipIf_beq _ nn s)
  · exact congrArg _ (skipIf_bne _ nn s)
  · exact congrArg _ (skipIf_beq _ (s.readV y) s)
  · exact congrArg _ (skipIf_bne _ (s.readV y) s)

end Sys2Proof.Proofs.ControlFlow
end

section
/-! The immediate and random family (spec/42_immediate_random.md R140 to R142): 6xnn, 7xnn and Cxnn, and which instructions the step's inputs reach (R241). -/

namespace Sys2Proof.Machine

/-! ### One register written (R20) -/

/-- A register write changes the register file alone, and in it no other register. -/
theorem writeV_frame (s : State) (x : Nibble) (b : Byte) :
    (∀ r, r ≠ x → (s.writeV x b).readV r = s.readV r) ∧ s.writeV x b = { s with v := (s.writeV x b).v } :=
  ⟨fun _ hr => readV_writeV_ne s hr.symm b, rfl⟩

/-! ### Other inputs for the same step: the operations that branch or loop commute with the replacement -/

/-- The state with the inputs `j` presented in place of its own (R32). -/
def replaceInput (j : StepInput) (s : State) : State := { s with input := j }

section ReplaceInput

variable {j : StepInput} {s : State}

theorem skipIf_replaceInput {c c' : Bool} (hc : c = c') : skipIf c (replaceInput j s) = replaceInput j (skipIf c' s) := by
  subst hc
  cases c <;> rfl

theorem writeIndexFlag_replaceInput (o : Bool) :
    writeIndexFlag o (replaceInput j s) = replaceInput j (writeIndexFlag o s) := by
  rw [writeIndexFlag, writeIndexFlag, apply_ite (replaceInput j), apply_ite (replaceInput j)]
  rfl

theorem loadRegisters_replaceInput (count : Nat) :
    loadRegisters (replaceInput j s) count = replaceInput j (loadRegisters s count) := by
  induction count with
  | zero => rfl
  | succ k ih => exact congrArg (fun u => State.writeV u _ _) ih

theorem drawSprite_replaceInput (x y n : Nibble) : drawSprite x y n (replaceInput j s) = drawSprite x y n s :=
  drawSprite_congr rfl rfl rfl fun _ _ => rfl

/-- RET branches on SP, which is no input (R121). -/
theorem execRet_replaceInput : execRet (replaceInput j s) = onNext (replaceInput j) (execRet s) := by
  rw [execRet, execRet, apply_ite (onNext _), apply_ite (onNext _)]
  rfl

/-- CALL branches on SP, which is no input (R123). -/
theorem execCall_replaceInput (nnn : Addr12) :
    execCall nnn (replaceInput j s) = onNext (replaceInput j) (execCall nnn s) := by
  rw [execCall, execCall, apply_ite (onNext _), apply_ite (onNext _)]
  rfl

/-- The key that Ex9E and ExA1 test is down or up by the keys alone (R216). -/
theorem keyPressed_replaceInput (hkeys : j.keys = s.input.keys) (x : Nibble) :
    keyPressed (replaceInput j s) (keyOperand (replaceInput j s) x) = keyPressed s (keyOperand s x) :=
  keyPressed_keyOperand_congr rfl hkeys

/-- Fx0A branches on the keys and takes its result from them, and from no other input (R212). -/
theorem execLdVxKey_replaceInput (hkeys : j.keys = s.input.keys) (x : Nibble) :
    execLdVxKey x (replaceInput j s) = onNext (replaceInput j) (execLdVxKey x s) := by
  have hkeys' : (replaceInput j s).input.keys = s.input.keys := hkeys
  rw [execLdVxKey, execLdVxKey, hkeys', onNext_next, apply_ite (replaceInput j)]
  rfl

/-- R142, R241: an execute phase commutes with a replacement of the inputs that keeps the keys for the three instructions that read them
and the random byte for Cxnn. -/
theorem exec_replaceInput {i : Instr}
    (hkeys : (∃ x, i = .skp x ∨ i = .sknp x ∨ i = .ldVxKey x) → j.keys = s.input.keys)
    (hrnd : (∃ x nn, i = .rnd x nn) → j.rnd = s.input.rnd) :
    exec i (replaceInput j s) = onNext (replaceInput j) (exec i s) := by
  cases i with
  | skp x => exact congrArg _ (skipIf_replaceInput (keyPressed_replaceInput (hkeys ⟨x, .inl rfl⟩) x))
  | sknp x =>
    exact congrArg _ (skipIf_replaceInput (congrArg (!·) (keyPressed_replaceInput (hkeys ⟨x, .inr (.inl rfl)⟩) x)))
  | ldVxKey x => exact execLdVxKey_replaceInput (hkeys ⟨x, .inr (.inr rfl)⟩) x
  | rnd x nn => exact congrArg (fun b => Host.Outcome.next ((replaceInput j s).writeV x (b &&& nn))) (hrnd ⟨x, nn, rfl⟩)
  | ret => exact execRet_replaceInput
  | call nnn => exact execCall_replaceInput nnn
  | seImm | sneImm | seReg | sneReg => exact congrArg _ (skipIf_replaceInput rfl)
  | drw x y n =>
    exact congrArg (fun d => Host.Outcome.next (((replaceInput j s).writeFb d.1).writeV 0xF#4 (flagByte d.2)))
      (drawSprite_replaceInput x y n)
  | addI x => exact congrArg Host.Outcome.next (writeIndexFlag_replaceInput (s := s.writeIndex _) _)
  | loadRegs x => exact congrArg (fun u => Host.Outcome.next (State.writeIndex u _)) (loadRegisters_replaceInput _)
  | cls | jp | jpV0 | ldI | ldF => rfl
  | ldImm | addImm | ldReg | orReg | andReg | xorReg | addReg | subReg | shr | subn | shl => rfl
  | ldVxDt | ldDtVx | ldStVx | ldB | storeRegs => rfl

end ReplaceInput

end Sys2Proof.Machine

namespace Sys2Proof.Proofs.ImmediateRandom

open Sys2Proof.Machine Sys2Proof.Spec

/-- Settles O23: instruction by instruction, the execute phase commutes with the replacement. -/
theorem inputsReachOnlyTheirInstructions : Obligations.InputsReachOnlyTheirInstructions := by
  unfold Obligations.InputsReachOnlyTheirInstructions
  exact fun i s j hkeys hrnd => exec_replaceInput hkeys hrnd

/-- Settles O35: one register write, of the immediate. -/
theorem loadImmediate : Obligations.LoadImmediate := by
  unfold Obligations.LoadImmediate
  exact fun x nn s => ⟨rfl, _, rfl, readV_writeV_same _ _ _, writeV_frame s x _⟩

/-- Settles O36: one register write, of the sum in eight bits. -/
theorem addImmediate : Obligations.AddImmediate := by
  unfold Obligations.AddImmediate
  intro x nn s
  refine ⟨rfl, _, rfl, ?_, writeV_frame s x _⟩
  rw [readV_writeV_same]
  exact BitVec.toNat_add _ _

/-- Settles O37: one register write, of the random byte and the mask, bit by bit. -/
theorem randomIsMasked : Obligations.RandomIsMasked := by
  unfold Obligations.RandomIsMasked
  intro x nn s
  refine ⟨rfl, _, rfl, fun b => ?_, writeV_frame s x _⟩
  rw [readV_writeV_same]
  exact BitVec.getLsbD_and

end Sys2Proof.Proofs.ImmediateRandom
end

section
/-! The ALU family (spec/43_alu.md R150 to R160): copy and logic write one register; the sum, the differences and the shifts write a result and then the flag. -/

namespace Sys2Proof.Machine

/-! ### The result and the flag (R150) -/

section ResultAndFlag

variable (s : State) (x : Nibble) (r f : Byte)

/-- The result stands in V[x], except where the flag has taken its place (D18). -/
theorem readV_result_writeResultAndFlag {x : Nibble} (hx : x ≠ 0xF#4) : (s.writeResultAndFlag x r f).readV x = r := by
  rw [readV_writeResultAndFlag, if_neg hx, if_pos rfl]

/-- A result and a flag change the register file alone, and in it no register but V[x] and VF. -/
theorem writeResultAndFlag_frame :
    (∀ q, q ≠ x → q ≠ 0xF#4 → (s.writeResultAndFlag x r f).readV q = s.readV q) ∧
      s.writeResultAndFlag x r f = { s with v := (s.writeResultAndFlag x r f).v } := by
  refine ⟨fun q hqx hqf => ?_, rfl⟩
  rw [readV_writeResultAndFlag, if_neg hqf, if_neg hqx]

end ResultAndFlag

/-! ### The arithmetic of bytes and its flags, as numbers (R151) -/

section Arithmetic

variable (a b : Byte)

/-- A difference of bytes is the difference of the numbers modulo 256, which may be negative before it is reduced. -/
theorem toNat_byte_sub : ((a - b).toNat : Int) = ((a.toNat : Int) - b.toNat) % 256 := by
  have hb := b.isLt
  rw [BitVec.toNat_sub]
  omega

theorem carryOfAdd_toNat : (flagByte (carryOfAdd a b)).toNat = if a.toNat + b.toNat > 255 then 1 else 0 := by
  simp only [flagByte_toNat, carryOfAdd, decide_eq_true_eq]

theorem noBorrow_toNat : (flagByte (noBorrow a b)).toNat = if a.toNat ≥ b.toNat then 1 else 0 := by
  simp only [flagByte_toNat, noBorrow, decide_eq_true_eq]

end Arithmetic

end Sys2Proof.Machine

namespace Sys2Proof.Proofs.Alu

open Sys2Proof.Machine

/-- Settles O39: the result is the sum in eight bits, and the flag its carry out. -/
theorem addWithCarry : Obligations.AddWithCarry := by
  unfold Obligations.AddWithCarry
  intro x y s
  refine ⟨packXYN_eq_wordXY _ x y _, _, rfl, fun hx => ?_, ?_, writeResultAndFlag_frame s x _ _⟩
  · rw [readV_result_writeResultAndFlag s _ _ hx]
    exact BitVec.toNat_add _ _
  · rw [readV_flag_writeResultAndFlag, carryOfAdd_toNat]

/-- Settles O40: the result and the flag come from the operands as read, minuend V[x]. -/
theorem subtractWithNoBorrow : Obligations.SubtractWithNoBorrow := by
  unfold Obligations.SubtractWithNoBorrow
  intro x y s
  refine ⟨packXYN_eq_wordXY _ x y _, _, rfl, fun hx => ?_, ?_, writeResultAndFlag_frame s x _ _⟩
  · rw [readV_result_writeResultAndFlag s _ _ hx, toNat_byte_sub]
  · rw [readV_flag_writeResultAndFlag, noBorrow_toNat]

/-- Settles O41: the result and the flag come from the operands as read, minuend V[y]. -/
theorem subtractReversed : Obligations.SubtractReversed := by
  unfold Obligations.SubtractReversed
  intro x y s
  refine ⟨packXYN_eq_wordXY _ x y _, _, rfl, fun hx => ?_, ?_, writeResultAndFlag_frame s x _ _⟩
  · rw [readV_result_writeResultAndFlag s _ _ hx, toNat_byte_sub]
  · rw [readV_flag_writeResultAndFlag, noBorrow_toNat]

/-- Settles O42: the operand the strap chooses is halved, and its bit 0 is the flag. -/
theorem shiftRight : Obligations.ShiftRight := by
  unfold Obligations.ShiftRight
  intro x y s
  refine ⟨packXYN_eq_wordXY _ x y _, _, rfl, fun hx => ?_, ?_, writeResultAndFlag_frame s x _ _⟩
  · rw [readV_result_writeResultAndFlag s _ _ hx, shiftOperand_eq, BitVec.toNat_ushiftRight, Nat.shiftRight_eq_div_pow, pow_one]
  · rw [readV_flag_writeResultAndFlag, shiftedOutRight_toNat, shiftOperand_eq]

/-- Settles O43: the operand the strap chooses is doubled in eight bits, and its bit 7 is the flag. -/
theorem shiftLeft : Obligations.ShiftLeft := by
  unfold Obligations.ShiftLeft
  intro x y s
  refine ⟨packXYN_eq_wordXY _ x y _, _, rfl, fun hx => ?_, ?_, writeResultAndFlag_frame s x _ _⟩
  · rw [readV_result_writeResultAndFlag s _ _ hx, shiftOperand_eq, BitVec.toNat_shiftLeft, Nat.shiftLeft_eq, pow_one]
  · rw [readV_flag_writeResultAndFlag, shiftedOutLeft_toNat, shiftOperand_eq]

/-- Settles O38: each of the four is one register write, and no flag follows it. -/
theorem copyAndLogic : Obligations.CopyAndLogic := by
  unfold Obligations.CopyAndLogic
  intro x y s
  refine ⟨_, _, _, _, rfl, rfl, rfl, rfl, readV_writeV_same _ _ _, fun b => ?or, fun b => ?and, fun b => ?xor, ?frame⟩
  case or =>
    rw [readV_writeV_same]
    exact BitVec.getLsbD_or
  case and =>
    rw [readV_writeV_same]
    exact BitVec.getLsbD_and
  case xor =>
    rw [readV_writeV_same]
    exact BitVec.getLsbD_xor
  case frame =>
    simp only [List.forall_mem_cons]
    exact ⟨writeV_frame s x _, writeV_frame s x _, writeV_frame s x _, writeV_frame s x _, List.forall_mem_nil _⟩

end Sys2Proof.Proofs.Alu
end

section
/-! The index and memory family (spec/44_index_memory.md R170 to R177): I loaded and added to, the digits of a byte, and the register block stored and loaded. -/

namespace Sys2Proof.Machine

/-! ### What is written to I, as numbers, and the flag of Fx1E (R171, R172) -/

section Index

variable (s : State)

theorem toNat_index_add (i : Word) (b : Byte) : (i + b.setWidth 16).toNat = (i.toNat + b.toNat) % 65536 := by
  have hb : b.toNat < 2 ^ 8 := b.isLt
  rw [BitVec.toNat_add, BitVec.toNat_setWidth, Nat.mod_eq_of_lt (by omega : b.toNat < 2 ^ 16)]

/-- I after Fx55 and Fx65: past the block exactly when the strap is set (R171, D5). -/
theorem toNat_ite_indexPastBlock (x : Nibble) (q : Bool) :
    (if q then indexPastBlock s x else s.index).toNat =
      if q then (s.index.toNat + x.toNat + 1) % 65536 else s.index.toNat := by
  rw [apply_ite BitVec.toNat, indexPastBlock_toNat]

/-- VF after Fx1E: the overflow of sixteen bits, else what the strap says (D20). -/
theorem toNat_flag_writeIndexFlag (i : Word) (b : Byte) :
    ((writeIndexFlag (indexOverflow i b) s).readV 0xF#4).toNat =
      if i.toNat + b.toNat > 65535 then 1 else if s.straps.fx1eClearsVf then 0 else (s.readV 0xF#4).toNat := by
  simp only [readV_writeIndexFlag, if_true, apply_ite BitVec.toNat, indexOverflow, decide_eq_true_eq, BitVec.toNat_ofNat,
    Nat.reducePow, Nat.reduceMod]

/-- Fx1E writes I and VF, and leaves the other registers. -/
theorem writeIndexFlag_writeIndex_frame (o : Bool) (w : Word) :
    (∀ r, r ≠ 0xF#4 → (writeIndexFlag o (s.writeIndex w)).readV r = s.readV r) ∧
      writeIndexFlag o (s.writeIndex w) =
        { s with v := (writeIndexFlag o (s.writeIndex w)).v, index := (writeIndexFlag o (s.writeIndex w)).index } := by
  refine ⟨fun r hr => ?_, ?_⟩
  · rw [readV_writeIndexFlag, if_neg hr, readV_writeIndex]
  · rw [writeIndexFlag_index]
    exact writeIndexFlag_frame (s.writeIndex w) o

end Index

/-! ### The digits of a byte, as numbers (R174) -/

@[simp] theorem decimalDigits_length (a : Byte) : (decimalDigits a).length = 3 := rfl

/-- A byte is below 1000, so its hundreds are a digit. -/
theorem toNat_decimalDigits (a : Byte) :
    (decimalDigits a)[0].toNat = a.toNat / 100 ∧ (decimalDigits a)[1].toNat = a.toNat / 10 % 10 ∧
      (decimalDigits a)[2].toNat = a.toNat % 10 := by
  have ha : a.toNat < 256 := a.isLt
  simp only [decimalDigits, List.getElem_cons_zero, List.getElem_cons_succ, BitVec.toNat_ofNat]
  omega

/-! ### What the storing and loading instructions do (R174 to R176) -/

section Blocks

variable {x : Nibble} {s t : State}

/-- R174: after Fx33 the byte at offset `k` from I is digit `k` of V[x]; three bytes do not lap the memory. -/
theorem read_ldB (h : exec (.ldB x) s = .next t) {k : Nat} (hk : k < (decimalDigits (s.readV x)).length) :
    Memory.read t.mem (indexAddress s k) = (decimalDigits (s.readV x))[k] := by
  have hlen : (decimalDigits (s.readV x)).length ≤ memSize := by
    rw [decimalDigits_length, memSize]
    omega
  rw [exec_mem h]
  exact read_writeBytes_inside s.mem (indexAddress s 0) _ hlen k hk

/-- R175: after Fx55 the byte at the offset that is a register's number reads as that register. -/
theorem read_storeRegs_register (h : exec (.storeRegs x) s = .next t) {r : Nibble} (hr : r.toNat ≤ x.toNat) :
    Memory.read t.mem (indexAddress s r.toNat) = s.readV r := by
  rw [read_storeRegs h hr, BitVec.ofNat_toNat, BitVec.setWidth_eq]

/-- The bytes outside those an instruction stores are as they were (R38, R55). -/
theorem read_exec_outside {i : Instr} (h : exec i s = .next t) {a : Nat}
    (ha : ∀ k < Spec.storedBytes i, indexAddress s k % 4096 ≠ a % 4096) : Memory.read t.mem a = Memory.read s.mem a := by
  obtain ⟨-, -, -, -, -, -, -, -, hmem, -⟩ := Spec.exec_changesOnlyItsColumn h
  exact hmem a ha

/-- R176: the registers after Fx65. -/
theorem readV_loadRegs (h : exec (.loadRegs x) s = .next t) (r : Nibble) :
    t.readV r = if r.toNat ≤ x.toNat then Memory.read s.mem (indexAddress s r.toNat) else s.readV r := by
  have hx : x.toNat < 2 ^ 4 := x.isLt
  cases h
  rw [readV_writeIndex, readV_loadRegisters s _ (by omega)]
  simp only [Nat.lt_succ_iff]

end Blocks

end Sys2Proof.Machine

namespace Sys2Proof.Proofs.IndexMemory

open Sys2Proof.Machine Sys2Proof.Spec

/-- Settles O45: I is written first and VF last, from the old I and the old V[x]. -/
theorem addToIndex : Obligations.AddToIndex := by
  unfold Obligations.AddToIndex
  intro x s
  refine ⟨_, rfl, ?_, toNat_flag_writeIndexFlag _ _ _, writeIndexFlag_writeIndex_frame s _ _⟩
  rw [writeIndexFlag_index, writeIndex_index, toNat_index_add]

/-- Settles O47: the three digits read back at their offsets, and outside them memory is as it was. -/
theorem decimalStore : Obligations.DecimalStore := by
  unfold Obligations.DecimalStore
  intro x s
  obtain ⟨hhundreds, htens, hones⟩ := toNat_decimalDigits (s.readV x)
  refine ⟨packXNN_eq_wordX _ x _, _, rfl, ?frame, ?hundreds, ?tens, ?ones, fun a ha => ?outside⟩
  case frame => exact congrArg s.writeMem (writeBytes_eq _ _ _)
  case hundreds => exact (congrArg BitVec.toNat (read_ldB rfl _)).trans hhundreds
  case tens => exact (congrArg BitVec.toNat (read_ldB rfl _)).trans htens
  case ones => exact (congrArg BitVec.toNat (read_ldB rfl _)).trans hones
  case outside => exact read_exec_outside (i := .ldB x) rfl ha

/-- Settles O48: the register block reads back, outside it memory is as it was, and I moves as its strap says. -/
theorem blockStore : Obligations.BlockStore := by
  unfold Obligations.BlockStore
  intro x s
  refine ⟨packXNN_eq_wordX _ x _, _, rfl, ?frame, fun k hk => ?inside, fun a ha => ?outside, ?index⟩
  case frame => exact congrArg (fun m => State.writeIndex (s.writeMem m) _) (writeBytes_eq _ _ _)
  case inside => exact read_storeRegs_register rfl hk
  case outside => exact read_exec_outside (i := .storeRegs x) rfl fun k hk => ha k (Nat.le_of_lt_succ hk)
  case index => exact toNat_ite_indexPastBlock s x _

/-- Settles O49: the registers after the loads, and I as its strap says. -/
theorem blockLoad : Obligations.BlockLoad := by
  unfold Obligations.BlockLoad
  intro x s
  refine ⟨packXNN_eq_wordX _ x _, _, rfl, ?frame, fun k hk => ?loaded, fun k hk => ?kept, ?index⟩
  case frame => exact congrArg (fun u => State.writeIndex u _) (loadRegisters_frame s _)
  case loaded => rw [readV_loadRegs rfl, if_pos hk]
  case kept => rw [readV_loadRegs rfl, if_neg hk.not_ge]
  case index => exact toNat_ite_indexPastBlock s x _

/-- Settles O50: Fx65 reads at offset `k` the byte Fx55 stored there, since I and memory are the same. -/
theorem storeThenLoadBack : Obligations.StoreThenLoadBack := by
  unfold Obligations.StoreThenLoadBack
  intro x s t u w hstore hmem hindex hload k hk
  calc w.readV k
      = Memory.read u.mem (indexAddress u k.toNat) := by rw [readV_loadRegs hload, if_pos hk]
    _ = Memory.read t.mem (indexAddress s k.toNat) := by rw [hmem, indexAddress_congr hindex]
    _ = s.readV k := read_storeRegs_register hstore hk

/-- Settles O44: one write of I, of the address zero-extended. -/
theorem loadIndex : Obligations.LoadIndex := by
  unfold Obligations.LoadIndex
  exact fun nnn s => ⟨rfl, _, rfl, addressOperand_toNat nnn, rfl⟩

/-- Settles O46: one write of I; the formula stays below 2^16 for every byte. -/
theorem fontAddressOfByte : Obligations.FontAddressOfByte := by
  unfold Obligations.FontAddressOfByte
  exact fun x s => ⟨_, rfl, fontAddress_toNat _, rfl⟩

end Sys2Proof.Proofs.IndexMemory
end

section
/-! The display family (spec/45_display.md R190 to R194): 00E0 clears every cell, and Dxyn flips the pixels its sprite covers and tells in VF of a collision. -/

namespace Sys2Proof.Machine

open Sys2Proof.Spec

section Sprite

variable {x y n : Nibble} {s t : State} {c r : Nat}

/-! ### The pixels a sprite covers (R192, R193, D21) -/

/-- The statements' sprite is the one the drawing follows bit by bit. -/
theorem spriteCovers_iff_spriteBit :
    spriteCovers s x y n c r ↔
      spriteBit s ((s.readV x).toNat % 64) ((s.readV y).toNat % 32) n.toNat c r = true := by
  simp only [spriteCovers, spriteBit, columnBit, indexAddress, Bool.and_eq_true, decide_eq_true_eq]
  constructor
  · rintro ⟨hleft, hright, htop, hbottom, hbit⟩
    exact ⟨⟨htop, hbottom⟩, ⟨hleft, Nat.lt_succ_of_le hright⟩, hbit⟩
  · rintro ⟨⟨htop, hbottom⟩, ⟨hleft, hright⟩, hbit⟩
    exact ⟨hleft, Nat.le_of_lt_succ hright, htop, hbottom, hbit⟩

/-- Which pixels are covered depends on the coordinates, I and memory alone. -/
theorem spriteCovers_congr (hx : s.readV x = t.readV x) (hy : s.readV y = t.readV y) (hindex : s.index = t.index)
    (hmem : s.mem = t.mem) : spriteCovers s x y n c r ↔ spriteCovers t x y n c r := by
  simp only [spriteCovers, hx, hy, hindex, hmem]

/-! ### The framebuffer and the collision of a drawing (R192, R194) -/

/-- A pixel is set after the drawing exactly when it was set and is not covered, or was clear and is. -/
theorem cell_drawSprite_iff (hc : c < 64) (hr : r < 32) :
    Framebuffer.cell (drawSprite x y n s).1 (r * 64 + c) = true ↔
      (Framebuffer.cell s.fb (r * 64 + c) = true ∧ ¬ spriteCovers s x y n c r) ∨
      (Framebuffer.cell s.fb (r * 64 + c) = false ∧ spriteCovers s x y n c r) := by
  rw [spriteCovers_iff_spriteBit, drawSprite, cell_drawRows _ _ _ _ _ _ _ hc hr]
  cases Framebuffer.cell s.fb (r * 64 + c) <;> simp

/-- On the pixels a sprite covers the drawing sets exactly those that were clear. -/
theorem cell_drawSprite_of_covers (hc : c < 64) (hr : r < 32) (h : spriteCovers s x y n c r) :
    Framebuffer.cell (drawSprite x y n s).1 (r * 64 + c) = true ↔ Framebuffer.cell s.fb (r * 64 + c) = false := by
  rw [cell_drawSprite_iff hc hr]
  simp [h]

theorem drawSprite_collides_iff_covers :
    (drawSprite x y n s).2 = true ↔
      ∃ c r, c < 64 ∧ r < 32 ∧ spriteCovers s x y n c r ∧ Framebuffer.cell s.fb (r * 64 + c) = true := by
  simp only [spriteCovers_iff_spriteBit, drawSprite, collides_drawRows, Bool.false_eq_true, false_or]

/-- Flipping the same pixels again restores the framebuffer. -/
theorem drawSprite_drawSprite (hfb : t.fb = (drawSprite x y n s).1)
    (hcovers : ∀ c r, spriteCovers t x y n c r ↔ spriteCovers s x y n c r) : (drawSprite x y n t).1 = s.fb := by
  refine framebuffer_ext fun c r hc hr => Bool.eq_iff_iff.2 ?_
  rw [cell_drawSprite_iff hc hr, hcovers, hfb, ← Bool.not_eq_true, cell_drawSprite_iff hc hr]
  by_cases h : spriteCovers s x y n c r <;> simp [h]

/-! ### VF after a drawing (R194) -/

/-- VF after Dxyn is 1 exactly when a pixel the sprite covers was set. -/
theorem readV_flag_drw_iff (h : exec (.drw x y n) s = .next t) :
    t.readV 0xF#4 = 0x01#8 ↔
      ∃ c r, c < 64 ∧ r < 32 ∧ spriteCovers s x y n c r ∧ Framebuffer.cell s.fb (r * 64 + c) = true := by
  cases h
  rw [readV_writeV_same, flagByte_eq_one, drawSprite_collides_iff_covers]

/-- Dxyn leaves the pixels its own sprite covers where they were, when neither coordinate is in VF. -/
theorem spriteCovers_drw_iff (hx : x ≠ 0xF#4) (hy : y ≠ 0xF#4) (h : exec (.drw x y n) s = .next t) (c r : Nat) :
    spriteCovers t x y n c r ↔ spriteCovers s x y n c r := by
  cases h
  exact spriteCovers_congr (readV_writeV_ne _ hx.symm _) (readV_writeV_ne _ hy.symm _) rfl rfl

end Sprite

end Sys2Proof.Machine

namespace Sys2Proof.Proofs.Display

open Sys2Proof.Machine Sys2Proof.Spec

/-- Settles O52: pixel by pixel the drawing's flip, and VF from its collision, after which only the register file and the framebuffer differ. -/
theorem drawSprite : Obligations.DrawSprite := by
  unfold Obligations.DrawSprite
  intro x y n s
  refine ⟨_, rfl, fun c r hc hr => cell_drawSprite_iff hc hr, readV_flag_drw_iff rfl, ?flag, ?registers, rfl⟩
  case flag =>
    rw [readV_writeV_same]
    exact flagByte_zero_or_one _
  case registers => exact (writeV_frame _ _ _).1

/-- Settles O53: the second drawing flips the pixels the first flipped, and those of them that are set before it are the ones that were clear before the first. -/
theorem drawTwiceRestores : Obligations.DrawTwiceRestores := by
  unfold Obligations.DrawTwiceRestores
  intro x y n s t hx hy hdraw
  have hcovers := spriteCovers_drw_iff hx hy hdraw
  have hfb : t.fb = (Machine.drawSprite x y n s).1 := by cases hdraw; rfl
  refine ⟨_, rfl, drawSprite_drawSprite hfb hcovers, (readV_flag_drw_iff rfl).trans ?_⟩
  refine exists_congr fun c => exists_congr fun r => and_congr_right fun hc => and_congr_right fun hr => ?_
  rw [hcovers, hfb]
  exact and_congr_right fun hcov => cell_drawSprite_of_covers hc hr hcov

/-- Settles O51: one write of the framebuffer, of the one whose every cell is 0. -/
theorem clearScreen : Obligations.ClearScreen := by
  unfold Obligations.ClearScreen
  exact fun s => ⟨rfl, _, rfl, fun k _ => cell_cleared k, rfl⟩

end Sys2Proof.Proofs.Display
end

section
/-! The keypad and timer family (spec/46_keypad_timers.md R210 to R216): the two key skips, the wait for a key and the step that waits, and the timer moves. -/

namespace Sys2Proof.Machine

open Sys2Proof.Spec

/-! ### The key skips (R210, R211, R216) -/

/-- The key of Ex9E and ExA1 is bit `V[x] mod 16` of the snapshot (the spec's decision D15). -/
theorem keyPressed_keyOperand (s : State) (x : Nibble) :
    keyPressed s (keyOperand s x) = s.input.keys.getLsbD ((s.readV x).toNat % 16) :=
  congrArg s.input.keys.getLsbD (keyOperand_toNat s x)

/-- Skipping on the opposite test takes the other branch. -/
theorem skipIf_not (c : Bool) (s : State) : skipIf (!c) s = if c then s else s.writePc (s.pc + 2#16) := by
  cases c <;> rfl

/-! ### Fx0A, by whether a key is down (R212) -/

section KeyWait

variable {s : State} (x : Nibble)

theorem encode_ldVxKey : encode (.ldVxKey x) = wordX 0xF00A#16 x := packXNN_eq_wordX _ x _

theorem exec_ldVxKey_of_noKey (h : s.input.keys = 0#16) : exec (.ldVxKey x) s = .next (s.writePc (s.pc - 2#16)) :=
  congrArg Host.Outcome.next (if_pos h)

theorem exec_ldVxKey_of_key (h : s.input.keys ≠ 0#16) :
    exec (.ldVxKey x) s = .next (s.writeV x (BitVec.ofNat 8 (lowestPressedKey s.input.keys))) :=
  congrArg Host.Outcome.next (if_neg h)

/-- A key number fits in a byte. -/
theorem toNat_lowestPressedKey (h : s.input.keys ≠ 0#16) :
    (BitVec.ofNat 8 (lowestPressedKey s.input.keys)).toNat = lowestPressedKey s.input.keys := by
  have hlt := (lowestPressedKey_spec s.input.keys h).1
  exact Nat.mod_eq_of_lt (by omega)

end KeyWait

/-! ### A step that leaves PC where it was (R212, R246) -/

/-- What is left of a step whose execute phase writes back the PC it began with is the timer update and the host's inputs. -/
theorem presentNextInput_writePc_beginStep_frame (s : State) :
    sameButTimersAndInputs s (presentNextInput ((beginStep s).writePc s.pc)) := by
  refine (presentNextInput_frame _).trans ?_
  simp only [presentNextInput_dt, presentNextInput_st]
  rfl

/-- The wait takes back the advance of PC (R103). -/
theorem step_of_waiting {s : State} {x : Nibble} (hf : s.fault = .none) (hword : fetch s = wordX 0xF00A#16 x)
    (hkeys : s.input.keys = 0#16) : step s = .next (presentNextInput ((beginStep s).writePc s.pc)) := by
  have hd : decode (fetch s) = .ok (.ldVxKey x) := by
    rw [hword, ← encode_ldVxKey]
    exact Proofs.Encoding.decodeOfEncode (.ldVxKey x) rfl
  have hback : (beginStep s).pc - 2#16 = s.pc := BitVec.add_sub_cancel _ _
  rw [step_of_decode_ok hf hd, exec_ldVxKey_of_noKey (s := beginStep s) x hkeys, onNext_next, hback]

/-! ### The sound output (R27, R34) -/

theorem soundActive_iff (s : State) : soundActive s = true ↔ s.st ≠ 0x00#8 := by
  rw [soundActive, decide_eq_true_eq, Nat.pos_iff_ne_zero, ne_eq, ne_eq, ← BitVec.toNat_inj]
  rfl

end Sys2Proof.Machine

namespace Sys2Proof.Proofs.KeypadTimers

open Sys2Proof.Machine Sys2Proof.Spec

/-- Settles O55: with no key down PC is put back; otherwise one register is written, with the key the search finds. -/
theorem keyWait : Obligations.KeyWait := by
  unfold Obligations.KeyWait
  intro x s
  refine ⟨fun hnone => ⟨_, exec_ldVxKey_of_noKey x hnone, ?back, rfl⟩, fun hsome => ⟨_, exec_ldVxKey_of_key x hsome, ?key⟩⟩
  case back => exact (BitVec.toNat_add _ _).symm.trans (congrArg BitVec.toNat (BitVec.sub_add_cancel s.pc 2#16))
  case key =>
    obtain ⟨hlt, hdown, hlowest⟩ := lowestPressedKey_spec s.input.keys hsome
    rw [readV_writeV_same, toNat_lowestPressedKey hsome]
    exact ⟨hlt, hdown, hlowest, writeV_frame s x _⟩

/-- Settles O56: the step is the timer update and the host's presenting around a PC that ends where it began. -/
theorem waitingStepStaysInPlace : Obligations.WaitingStepStaysInPlace := by
  unfold Obligations.WaitingStepStaysInPlace
  intro s x hf hword hkeys
  refine ⟨_, step_of_waiting hf hword hkeys, ?word, ?dt, ?st, presentNextInput_writePc_beginStep_frame s⟩
  case word => rw [fetch_eq, presentNextInput_mem, presentNextInput_pc]; rfl
  case dt => rw [presentNextInput_dt, writePc_dt, beginStep_dt, decrementTimer_toNat]
  case st => rw [presentNextInput_st, writePc_st, beginStep_st, decrementTimer_toNat]

/-- Settles O54: the two skips test one key, the second the other way round, and the state past the next instruction is one for both. -/
theorem keySkips : Obligations.KeySkips := by
  unfold Obligations.KeySkips
  intro x s
  rw [← keyPressed_keyOperand]
  exact ⟨s.writePc (s.pc + 2#16), rfl, BitVec.toNat_add _ _, rfl, congrArg _ (skipIf_not _ s)⟩

/-- Settles O57: each move is one write, of a register or of a timer; the sound output reads the ST just written. -/
theorem timerMoves : Obligations.TimerMoves := by
  unfold Obligations.TimerMoves
  intro x s
  refine ⟨packXNN_eq_wordX _ x _, packXNN_eq_wordX _ x _, packXNN_eq_wordX _ x _, ⟨_, rfl, ?read⟩, ⟨_, rfl, rfl⟩,
    ⟨_, rfl, rfl, soundActive_iff _⟩⟩
  case read => exact ⟨readV_writeV_same _ _ _, writeV_frame s x _⟩

end Sys2Proof.Proofs.KeypadTimers
end

section
/-! The fault family (spec/60_exceptions.md R230 to R233): when a step raises which fault, and the state a faulting step leaves. -/

namespace Sys2Proof.Machine

open Sys2Proof.Spec

/-! ### The causes (R230 to R232) -/

/-- The fault a step of a running core raises, by the word it fetches and the SP it has before any write; no cause stands for `FaultLatch.none`. -/
inductive Raises (s : State) : FaultLatch → Prop
  /-- R231: the fetched word is illegal. -/
  | unknownInstruction {e : DecodeError} (hd : decode (fetch s) = .error e) : Raises s .unknownInstruction
  /-- R232: a call with the call stack full. -/
  | stackOverflow {nnn : Addr12} (hd : decode (fetch s) = .ok (.call nnn)) (hsp : s.sp.toNat = stackDepth) : Raises s .stackOverflow
  /-- R232: a return with the call stack empty. -/
  | stackUnderflow (hd : decode (fetch s) = .ok .ret) (hsp : s.sp.toNat = 0) : Raises s .stackUnderflow

/-- R121: RET has the one word 0x00EE. -/
theorem decode_eq_ret_iff (w : Word) : decode w = .ok .ret ↔ w = 0x00EE#16 :=
  ⟨fun hd => (encode_of_decode_ret hd).symm, fun hw => hw ▸ Proofs.Encoding.decodeOfEncode .ret rfl⟩

/-- R76: the illegal words are those the decoder refuses. -/
theorem not_legalWord_iff (w : Word) : ¬ legalWord w ↔ ∃ e, decode w = .error e := by
  rw [← Proofs.Encoding.legalWordsAreTheTables w]
  cases decode w <;> simp

section Causes

variable (s : State)

theorem raises_unknownInstruction_iff : Raises s .unknownInstruction ↔ ¬ legalWord (fetch s) :=
  Iff.trans ⟨fun | .unknownInstruction hd => ⟨_, hd⟩, fun ⟨_, hd⟩ => .unknownInstruction hd⟩ (not_legalWord_iff _).symm

theorem raises_stackOverflow_iff :
    Raises s .stackOverflow ↔ (∃ nnn, decode (fetch s) = .ok (.call nnn)) ∧ s.sp.toNat = stackDepth :=
  ⟨fun | .stackOverflow hd hsp => ⟨⟨_, hd⟩, hsp⟩, fun ⟨⟨_, hd⟩, hsp⟩ => .stackOverflow hd hsp⟩

theorem raises_stackUnderflow_iff : Raises s .stackUnderflow ↔ fetch s = 0x00EE#16 ∧ s.sp.toNat = 0 := by
  rw [← decode_eq_ret_iff]
  exact ⟨fun | .stackUnderflow hd hsp => ⟨hd, hsp⟩, fun ⟨hd, hsp⟩ => .stackUnderflow hd hsp⟩

/-- The fault output names the latched fault by its code (R34). -/
theorem faultOutput_eq_code_iff (f : FaultLatch) : faultOutput s = f.code ↔ s.fault = f :=
  ⟨code_injective s.fault f, congrArg FaultLatch.code⟩

end Causes

/-! ### The faulting step (R233) -/

section FaultingStep

variable {s t : State}

/-- With a cause at hand the step is phases 1 to 3, the latching and nothing else, whichever fault it is. -/
theorem step_of_raises {f : FaultLatch} (hf : s.fault = .none) (hc : Raises s f) :
    step s = .next (presentNextInput (raise f (fetch s) (beginStep s))) := by
  cases hc with
  | unknownInstruction hd => exact step_of_decode_error hf hd
  | stackOverflow hd hsp =>
    rw [step_of_decode_ok hf hd, exec_call_of_full (s := beginStep s) _ hsp, encode_of_decode_call hd, onNext_next]
  | stackUnderflow hd hsp =>
    rw [step_of_decode_ok hf hd, exec_ret_of_empty (s := beginStep s) hsp, encode_of_decode_ret hd, onNext_next]

/-- A step ends halted only by one of the three causes. -/
theorem raises_of_step (hf : s.fault = .none) (h : step s = .next t) (hfault : t.fault ≠ .none) : Raises s t.fault := by
  rcases step_cases h with ⟨hne, -⟩ | ⟨-, ⟨e, hd⟩, rfl⟩ | ⟨-, i, u, hd, hu, rfl⟩
  · exact absurd hf hne
  · rw [presentNextInput_fault]
    exact .unknownInstruction hd
  · rw [presentNextInput_fault] at hfault ⊢
    rcases exec_latch_cases hu with ⟨hsame, -⟩ | ⟨nnn, rfl, hsp, rfl⟩ | ⟨rfl, hsp, rfl⟩
    · exact absurd (hsame.trans hf) hfault
    · exact .stackOverflow hd hsp
    · exact .stackUnderflow hd hsp

theorem eq_of_step_of_raises {f : FaultLatch} (hf : s.fault = .none) (h : step s = .next t) (hc : Raises s f) :
    t = presentNextInput (raise f (fetch s) (beginStep s)) :=
  Host.Outcome.next.inj (h.symm.trans (step_of_raises hf hc))

theorem fault_of_step_iff {f : FaultLatch} (hf : s.fault = .none) (h : step s = .next t) (hne : f ≠ .none) :
    t.fault = f ↔ Raises s f := by
  constructor
  · rintro rfl
    exact raises_of_step hf h hne
  · intro hc
    rw [eq_of_step_of_raises hf h hc, presentNextInput_fault, raise_fault]

end FaultingStep

end Sys2Proof.Machine

namespace Sys2Proof.Proofs.Exceptions

open Sys2Proof.Machine Sys2Proof.Spec

/-- Settles O15: the step answers, and each code is out exactly when the cause of its fault stands. -/
theorem whenEachFaultIsRaised : Obligations.WhenEachFaultIsRaised := by
  unfold Obligations.WhenEachFaultIsRaised
  intro s hf hsp
  obtain ⟨t, h⟩ := step_answers_of_sp hsp
  have hcode (f : FaultLatch) (hne : f ≠ .none) : faultOutput t = f.code ↔ Raises s f :=
    (faultOutput_eq_code_iff t f).trans (fault_of_step_iff hf h hne)
  refine ⟨t, h, ?unknown, ?overflow, ?underflow⟩
  case unknown => exact (hcode .unknownInstruction nofun).trans (raises_unknownInstruction_iff s)
  case overflow => exact (hcode .stackOverflow nofun).trans (raises_stackOverflow_iff s)
  case underflow => exact (hcode .stackUnderflow nofun).trans (raises_stackUnderflow_iff s)

/-- Settles O16: a faulting step is the latching after phases 1 to 3, so each clause is read off that state. -/
theorem faultingStepKeepsTheRest : Obligations.FaultingStepKeepsTheRest := by
  unfold Obligations.FaultingStepKeepsTheRest
  intro s t hf h hfault
  rw [eq_of_step_of_raises hf h (raises_of_step hf h hfault)]
  simp [decrementTimer_toNat]

end Sys2Proof.Proofs.Exceptions
end
